-- ==== Sys2Proof/Config.lean ====
section
/-! DEFINITION. The parameters of the machine: the sizes the spec fixes (00_scope.md R4) and the two
parameters it leaves open, NEGWORD (30_encoding.md R65) and TRACE (10_state.md R27). -/

namespace Sys2Proof

/-- MEMSIZE (00_scope.md R4): the number of memory words; the valid addresses are 0 to 49. -/
@[simp] abbrev memSize : Int := 50

/-- VMAX (00_scope.md R4): the largest value a memory word, AC or MQ can hold. -/
@[simp] abbrev vMax : Int := 99999

/-- VMIN (00_scope.md R4): the smallest value a memory word, AC or MQ can hold. -/
@[simp] abbrev vMin : Int := -99999

/-- OPDIV (00_scope.md R4): the divisor that splits a word into opcode and target. -/
@[simp] abbrev opDiv : Int := 1000

/-- NEGWORD (30_encoding.md R65, decision D6): how a negative word splits into opcode and target.
The source leaves it open, so both values are kept and no statement fixes one. -/
inductive NegWord where
  | trunc
  | floor
  deriving DecidableEq, Repr

/-- What is fixed for one machine at its creation: neither is architectural state, no instruction reads
or writes either, and no step changes them (log 6, log 7). -/
structure Config where
  /-- NEGWORD, 30_encoding.md R65. -/
  negWord : NegWord
  /-- TRACE, 10_state.md R27: whether decoded instructions are reported to the observation sink. -/
  trace   : Bool
  deriving DecidableEq, Repr

/-- The spec's defaults of the two open parameters: `trunc` (D6) and off (R27). -/
def Config.default : Config := { negWord := .trunc, trace := false }

end Sys2Proof
end

