-- ==== Sys2Proof/Word.lean ====
section
/-! DEFINITION. The two kinds of value the state holds: a word, and the status CPUSTATE. -/

namespace Sys2Proof

/-- The closed range [-99999, 99999] of a stored word (10_state.md R10 to R13, R23). A word is one signed
integer, written in decimal; the machine has no bits and no bytes (00_scope.md R5, 20_memory.md R41, R42),
so its Lean type is `Int`, and this range is kept as an invariant (log 2). -/
abbrev inRange (w : Int) : Prop := vMin ≤ w ∧ w ≤ vMax

/-- CPUSTATE (10_state.md R18): the machine's only status register, five named values. -/
inductive CpuState where
  /-- The next Step may execute. -/
  | runnable
  /-- Normal stop: HLT; also the loader, during a load and after a failed one (R182). -/
  | halted
  /-- The word at PC has no valid opcode, or PC is outside [0, 50). -/
  | invalidInstruction
  /-- The word at PC has a valid opcode and a target outside [0, 50). -/
  | invalidAddress
  /-- DIV found a zero divisor. -/
  | divideByZero
  deriving DecidableEq, Repr

end Sys2Proof
end

