-- ==== Sys2Proof/Syntax.lean ====
section
/-! DEFINITION. The instruction set: one constructor per row of the opcode table (30_encoding.md R62). -/

namespace Sys2Proof

/-- A decoded instruction whose operation is one of the 17 (30_encoding.md R66): the operation, and the
target address field as decoded. The field is an integer because the decoder reports it also when it is
outside [0, 50) (R64, R65); `Instr.wellFormed` is the range check. -/
inductive Instr where
  /-- Opcode 0, stop (40_cycle_and_halt.md R87). -/
  | hlt (t : Int)
  /-- Opcode 1, jump if AC = 0 (41_jumps.md R101). -/
  | jeq (t : Int)
  /-- Opcode 2, jump if AC > 0 (R102). -/
  | jgt (t : Int)
  /-- Opcode 3, jump if AC < 0 (R103). -/
  | jlt (t : Int)
  /-- Opcode 5, jump (R104). -/
  | jmp (t : Int)
  /-- Opcode 6, jump if AC ≤ 0 (R105). -/
  | jle (t : Int)
  /-- Opcode 7, jump if AC ≠ 0 (R106). -/
  | jne (t : Int)
  /-- Opcode 10, load AC (42_load_store.md R111). -/
  | lac (t : Int)
  /-- Opcode 11, put AC (R112). -/
  | pac (t : Int)
  /-- Opcode 12, load MQ (R113). -/
  | lmq (t : Int)
  /-- Opcode 13, put MQ (R114). -/
  | pmq (t : Int)
  /-- Opcode 20, add to AC (43_arithmetic.md R123). -/
  | add (t : Int)
  /-- Opcode 21, subtract from AC (R124). -/
  | sub (t : Int)
  /-- Opcode 22, multiply MQ (R125). -/
  | mul (t : Int)
  /-- Opcode 23, divide MQ, remainder to AC (R126). -/
  | div (t : Int)
  /-- Opcode 30, input to memory (44_io.md R140). -/
  | get (t : Int)
  /-- Opcode 31, output from memory (R141). -/
  | put (t : Int)
  deriving DecidableEq, Repr

end Sys2Proof
end

