-- ==== Sys2Proof/WellFormed.lean ====
section
/-! DEFINITION. Which instructions are well formed: those whose target names a memory word. -/

namespace Sys2Proof

/-- The target (address) field of an instruction (30_encoding.md R60, R66). -/
def Instr.target : Instr → Int
  | .hlt t | .jeq t | .jgt t | .jlt t | .jmp t | .jle t | .jne t | .lac t | .pac t | .lmq t | .pmq t
  | .add t | .sub t | .mul t | .div t | .get t | .put t => t

/-- An instruction is well formed when its target is in [0, 50), whether or not the operation uses the
target (30_encoding.md R64; conflict C1: address 49 is valid). -/
abbrev Instr.wellFormed (i : Instr) : Prop := 0 ≤ i.target ∧ i.target < memSize

end Sys2Proof
end

