-- ==== Sys2Proof/Decode.lean ====
section
/-! DEFINITION. The decoder of a word (30_encoding.md R60 to R69, R74), total on every integer and
rejecting by a named verdict, and the encoder, written from the same table (R62). -/

namespace Sys2Proof

/-- One row of the opcode table: the opcode, the mnemonic, and the instruction it makes of a target. -/
structure OpcodeRow where
  opcode   : Int
  mnemonic : String
  build    : Int → Instr

/-- The fixed table of 17 entries (30_encoding.md R62). -/
def opcodeTable : List OpcodeRow :=
  [ ⟨0, "HLT", .hlt⟩,
    ⟨1, "JEQ", .jeq⟩, ⟨2, "JGT", .jgt⟩, ⟨3, "JLT", .jlt⟩,
    ⟨5, "JMP", .jmp⟩, ⟨6, "JLE", .jle⟩, ⟨7, "JNE", .jne⟩ ] ++
  [ ⟨10, "LAC", .lac⟩, ⟨11, "PAC", .pac⟩, ⟨12, "LMQ", .lmq⟩, ⟨13, "PMQ", .pmq⟩ ] ++
  [ ⟨20, "ADD", .add⟩, ⟨21, "SUB", .sub⟩, ⟨22, "MUL", .mul⟩, ⟨23, "DIV", .div⟩ ] ++
  [ ⟨30, "GET", .get⟩, ⟨31, "PUT", .put⟩ ]

/-- The row of an opcode, if it is one of the 17 (R63: every other opcode is invalid). -/
def lookupOpcode (opc : Int) : Option OpcodeRow :=
  opcodeTable.find? (fun row => row.opcode == opc)

/-- The split of a word into opcode and target (R61; for negative words R65). For `w ≥ 0` both values of
NEGWORD give the ordinary quotient and remainder. -/
def splitWord : NegWord → Int → Int × Int
  | .trunc, w => (w.tdiv opDiv, w.tmod opDiv)
  | .floor, w => (w.fdiv opDiv, w.fmod opDiv)

/-- The decoded view of a word (R66): an instruction of one of the 17 operations, or the explicit
"unknown" marker with its address field. -/
inductive Decoded where
  | known (i : Instr)
  | unknown (addr : Int)
  deriving DecidableEq, Repr

/-- DecodeWord (R67), a pure function of one word. The tests stand in the order that fixes the priority of
the verdicts (R69): opcode first, then target. For an unknown opcode the decoded target is reported
(conflict C2, log 10). -/
def decodeWord (nw : NegWord) (w : Int) : Decoded × CpuState :=
  let opc := (splitWord nw w).1
  let tgt := (splitWord nw w).2
  match lookupOpcode opc with
  | none => (.unknown tgt, .invalidInstruction)
  | some row =>
    if tgt < 0 ∨ memSize ≤ tgt then (.known (row.build tgt), .invalidAddress)
    else (.known (row.build tgt), .runnable)

/-- The opcode of each operation (R62). -/
def Instr.opcode : Instr → Int
  | .hlt _ => 0
  | .jeq _ => 1
  | .jgt _ => 2
  | .jlt _ => 3
  | .jmp _ => 5
  | .jle _ => 6
  | .jne _ => 7
  | .lac _ => 10
  | .pac _ => 11
  | .lmq _ => 12
  | .pmq _ => 13
  | .add _ => 20
  | .sub _ => 21
  | .mul _ => 22
  | .div _ => 23
  | .get _ => 30
  | .put _ => 31

/-- The mnemonic of each operation (R62, R71). -/
def Instr.mnemonic : Instr → String
  | .hlt _ => "HLT"
  | .jeq _ => "JEQ"
  | .jgt _ => "JGT"
  | .jlt _ => "JLT"
  | .jmp _ => "JMP"
  | .jle _ => "JLE"
  | .jne _ => "JNE"
  | .lac _ => "LAC"
  | .pac _ => "PAC"
  | .lmq _ => "LMQ"
  | .pmq _ => "PMQ"
  | .add _ => "ADD"
  | .sub _ => "SUB"
  | .mul _ => "MUL"
  | .div _ => "DIV"
  | .get _ => "GET"
  | .put _ => "PUT"

/-- The word of an instruction: opcode * 1000 + target (R60). -/
def encode (i : Instr) : Int := i.opcode * opDiv + i.target

/-- One decimal digit as a character. -/
def digitChar (n : Nat) : Char := Char.ofNat (48 + n % 10)

/-- The rendering of the trace sink, `<MNEMONIC> <3-digit address>` with leading zeros (R71, D12), for
example `PUT 002`. Only executed instructions are reported, so the target is in [0, 50). -/
def Instr.render (i : Instr) : String :=
  let t := i.target.toNat
  i.mnemonic ++ " " ++ String.ofList [digitChar (t / 100), digitChar (t / 10), digitChar t]

/-- The instruction the decoder reads from a word given as the host gives it (log 21). The machine's words
are decimal and have no bits (00_scope.md R5), so the number `w` is the word itself, whatever `_nbits` is. -/
def decodeTableWord (_nbits w : Nat) : Option Instr :=
  match decodeWord .trunc (w : Int) with
  | (.known i, .runnable) => some i
  | _ => none

end Sys2Proof
end

