-- ==== Sys2Proof/Machine/State.lean ====
section
/-! DEFINITION. The state of the machine (10_state.md R10), the reasons a step can stop, and the state
after reset (70_reset_and_hazards.md R210). -/

namespace Sys2Proof.Machine

/-- One listed memory word at its address. The addressable unit is the word (20_memory.md R41), so the
cell holds a word where a byte machine's cell holds a byte (log 1). -/
abbrev Cell := Nat × Int

/-- Memory: the words that are not 0, by rising address (`Memory.wf`, Machine/Ops.lean). An unlisted
address reads 0, the reset contents (R210). -/
abbrev Memory := List Cell

/-- What passes at the block's ports, in order (10_state.md R25 to R27, 20_memory.md R55). -/
inductive PortEvent where
  /-- A GET took this integer, as the environment supplied it. -/
  | input (v : Int)
  /-- A PUT delivered this word. -/
  | output (v : Int)
  /-- The observation sink was told of this decoded instruction. -/
  | trace (i : Instr)
  deriving DecidableEq, Repr

/-- The machine. `mem`, `pc`, `ac`, `mq`, `cpu` are the architectural state, "exactly these five items, and
nothing else is state" (10_state.md R10); `config` is fixed at creation; `input` and `log` are the
environment's side of the ports (log 3, log 5). -/
structure State where
  /-- MEM[0..49] (R11). -/
  mem    : Memory
  /-- PC, the address of the next instruction to decode (R15). -/
  pc     : Int
  /-- AC, the accumulator (R12). -/
  ac     : Int
  /-- MQ, the multiplier-quotient register (R13). -/
  mq     : Int
  /-- CPUSTATE (R18). -/
  cpu    : CpuState
  /-- NEGWORD and TRACE (30_encoding.md R65, 10_state.md R27). -/
  config : Config
  /-- The integers the environment has supplied and no GET has taken, oldest first (R25, 44_io.md R140). -/
  input  : List Int
  /-- The environment's record of what passed at the ports, oldest first (R22, R55). -/
  log    : List PortEvent
  deriving DecidableEq, Repr

/-- Why the model faults. The machine itself never does: its anomalies are values of CPUSTATE (R88). -/
inductive Fault where
  /-- Raised by `memRead` and `memWrite` for an address outside [0, 50), which the spec says does not exist
  (20_memory.md R45 to R47). Only an ill-formed instruction given to `exec` reaches it; no step does.
  Safe (log 12). -/
  | addressOutsideMemory (a : Int)
  deriving DecidableEq, Repr

/-- Why the model refuses. -/
inductive Refusal where
  /-- Raised by an arm of `exec` without a meaning; no arm of this model raises it. Safe. -/
  | notModelled (mnemonic : String)
  /-- Raised by `step` when CPUSTATE is not runnable: "In any other value of CPUSTATE the block has no Step"
  (40_cycle_and_halt.md R80, R91; 93_implementation_defined.md U4). Safe (log 8). -/
  | stepInTerminalState (c : CpuState)
  deriving DecidableEq, Repr

/-- The machine right after a cold reset (R210): memory, PC, AC and MQ zero, CPUSTATE runnable. The
parameters stand at the spec's defaults, and the environment has supplied and recorded nothing. -/
def State.reset : State where
  mem := []
  pc := 0
  ac := 0
  mq := 0
  cpu := .runnable
  config := Config.default
  input := []
  log := []

end Sys2Proof.Machine
end

