-- ==== Sys2Proof/Machine/Ops.lean ====
section
/-! DEFINITION. The shared operations over memory, registers, ports and status: reading and writing a
word, bounded arithmetic, the decoder at an address, the PC advance, taking an exception and the resets. -/

namespace Sys2Proof.Machine

/-! ### Bounded arithmetic -/

/-- clamp (43_arithmetic.md R120): saturation to [-99999, 99999] of an exact integer result. -/
def clamp (x : Int) : Int :=
  if vMax < x then vMax else if x < vMin then vMin else x

/-! ### Memory -/

/-- The word listed at `a`, or 0 where none is listed. -/
def Memory.read : Memory → Nat → Int
  | [], _ => 0
  | c :: rest, a => if c.1 = a then c.2 else Memory.read rest a

/-- Lists a word at `a`, before the first higher address. -/
def Memory.insert (a : Nat) (v : Int) : Memory → Memory
  | [] => [(a, v)]
  | c :: rest => if a < c.1 then (a, v) :: c :: rest else c :: Memory.insert a v rest

/-- The memory with `v` at `a`: what was listed there goes, and `v` is listed unless it is the 0 that an
unlisted address reads as. -/
def Memory.write (m : Memory) (a : Nat) (v : Int) : Memory :=
  let others := m.filter (fun c => c.1 ≠ a)
  if v = 0 then others else Memory.insert a v others

/-- The canonical form: addresses strictly rising, each below 50, no listed 0. -/
abbrev Memory.wf (m : Memory) : Prop :=
  m.Pairwise (fun c d => c.1 < d.1) ∧ ∀ c ∈ m, (c.1 : Int) < memSize ∧ c.2 ≠ 0

/-- The memory word an address names: none outside [0, 50) (20_memory.md R40, R46, R47). -/
def cellOf (a : Int) : Option Nat :=
  if 0 ≤ a ∧ a < memSize then some a.toNat else none

/-- MemRead (20_memory.md R45). An address that names no word faults (log 12). -/
def memRead (m : Memory) (a : Int) : Except Fault Int :=
  match cellOf a with
  | some k => .ok (m.read k)
  | none => .error (.addressOutsideMemory a)

/-- MemWrite (20_memory.md R45). An address that names no word faults (log 12). -/
def memWrite (m : Memory) (a : Int) (v : Int) : Except Fault Memory :=
  match cellOf a with
  | some k => .ok (m.write k v)
  | none => .error (.addressOutsideMemory a)

/-- MEM[0..49] in order, as the environment observes it (10_state.md R28). -/
def Memory.words (m : Memory) : List Int := (List.range 50).map m.read

/-! ### Registers, one update each -/

def State.setMem (s : State) (m : Memory) : State := { s with mem := m }
def State.setPc (s : State) (a : Int) : State := { s with pc := a }
def State.setAc (s : State) (v : Int) : State := { s with ac := v }
def State.setMq (s : State) (v : Int) : State := { s with mq := v }
def State.setInput (s : State) (vs : List Int) : State := { s with input := vs }

/-- Records one event at the ports, after those before it (20_memory.md R55). -/
def State.emit (s : State) (e : PortEvent) : State := { s with log := s.log ++ [e] }

/-! ### Taking an exception, and coming back -/

/-- Taking an exception, and stopping normally: "the assignment CPUSTATE <- s and nothing else"
(60_exceptions.md R188). Nothing is saved, there is no handler, PC stays (R181, R188). -/
def State.stop (s : State) (c : CpuState) : State := { s with cpu := c }

/-- Warm reset (70_reset_and_hazards.md R211), the recovery from a terminal state (60_exceptions.md R189);
there is no return instruction. Memory stays; the ports' side is the environment's and stays too. -/
def State.warmReset (s : State) : State := { s with pc := 0, ac := 0, mq := 0, cpu := .runnable }

/-- Cold reset, the creation of the machine (70_reset_and_hazards.md R210), at which the environment
supplies the trace flag (log 17). -/
def State.coldReset (s : State) (trace : Bool) : State :=
  { s with mem := [], pc := 0, ac := 0, mq := 0, cpu := .runnable,
           config := { s.config with trace := trace } }

/-! ### The parts of a Step around the operation -/

/-- Decode (30_encoding.md R68): the decoded view of the word at an address, with its verdict. An address
outside [0, 50) is (unknown, 0), invalid-instruction. Reads one word and changes nothing. -/
def State.decodeAt (s : State) (a : Int) : Decoded × CpuState :=
  match cellOf a with
  | some k => decodeWord s.config.negWord (s.mem.read k)
  | none => (.unknown 0, .invalidInstruction)

/-- The PC advance, step 2 of 40_cycle_and_halt.md R81 (R83). -/
def State.advancePc (s : State) : State := { s with pc := s.pc + 1 }

/-- The report to the observation sink, step 2a of R81 (10_state.md R27): only when TRACE is on. -/
def State.report (s : State) (i : Instr) : State :=
  if s.config.trace then s.emit (.trace i) else s

/-- Steps 2 and 2a of R81: what happens between a successful decode and the operation. -/
def State.enter (s : State) (i : Instr) : State := s.advancePc.report i

/-- A GET for which the environment has supplied no value: its Step is not enabled (44_io.md R142). -/
def State.awaitsInput (s : State) : Instr → Bool
  | .get _ => s.input.isEmpty
  | .hlt _ | .jeq _ | .jgt _ | .jlt _ | .jmp _ | .jle _ | .jne _ | .lac _ | .pac _ | .lmq _ | .pmq _
  | .add _ | .sub _ | .mul _ | .div _ | .put _ => false

/-- The numeric code of a status value (10_state.md R20, D5); no rule depends on it. -/
def statusCode : CpuState → Nat
  | .runnable => 0
  | .halted => 1
  | .invalidInstruction => 2
  | .invalidAddress => 3
  | .divideByZero => 4

end Sys2Proof.Machine
end

