-- ==== Sys2Proof/Machine/Operands.lean ====
section
/-! DEFINITION. The one operand form: direct addressing, the effective address is the target itself
(42_load_store.md R110). -/

namespace Sys2Proof.Machine

/-- Reads the operand MEM[t] once and goes on with it. -/
def readOperand (t : Int) (s : State) (k : Int → State) : Host.Outcome State Fault Refusal :=
  match memRead s.mem t with
  | .ok v => .next (k v)
  | .error f => .fault f

/-- Stores `v` to the operand MEM[t]; no other word changes (20_memory.md R45). -/
def writeOperand (t : Int) (v : Int) (s : State) : Host.Outcome State Fault Refusal :=
  match memWrite s.mem t v with
  | .ok m => .next (s.setMem m)
  | .error f => .fault f

/-- The jump rule (41_jumps.md R100): taken, PC becomes the target; not taken, PC keeps the value the
advance gave it. Nothing else changes and MEM[t] is not read. -/
def jumpIf (taken : Bool) (t : Int) (s : State) : State :=
  if taken then s.setPc t else s

end Sys2Proof.Machine
end

