-- ==== Sys2Proof/Machine/Arithmetic.lean ====
section
/-! DEFINITION. Bounded arithmetic (43_arithmetic.md R120 to R129): exact, then clamped; DIV truncates and
needs no clamp. Saturation is silent (R129). -/

namespace Sys2Proof.Machine

/-- ADD: AC <- clamp(AC + MemRead(t)) (R123). -/
def execAdd (t : Int) (s : State) : Host.Outcome State Fault Refusal :=
  readOperand t s fun m => s.setAc (clamp (s.ac + m))

/-- SUB: AC <- clamp(AC - MemRead(t)) (R124). -/
def execSub (t : Int) (s : State) : Host.Outcome State Fault Refusal :=
  readOperand t s fun m => s.setAc (clamp (s.ac - m))

/-- MUL: MQ <- clamp(MQ * MemRead(t)) (R125). AC is neither read nor written. -/
def execMul (t : Int) (s : State) : Host.Outcome State Fault Refusal :=
  readOperand t s fun m => s.setMq (clamp (s.mq * m))

/-- The two results of a division by a nonzero divisor, both from the MQ before the instruction: the
truncated quotient to MQ, the remainder, with the dividend's sign, to AC (R126, 00_scope.md R6). -/
def divide (m : Int) (s : State) : State :=
  (s.setAc (s.mq.tmod m)).setMq (s.mq.tdiv m)

/-- DIV (R126): a zero divisor stops the machine in divide-by-zero with AC, MQ and MEM as they were; PC
was advanced before and stays so (conflict C4, log 9). -/
def execDiv (t : Int) (s : State) : Host.Outcome State Fault Refusal :=
  readOperand t s fun m => if m = 0 then s.stop .divideByZero else divide m s

end Sys2Proof.Machine
end

