-- ==== Sys2Proof/Machine/Halt.lean ====
section
/-! DEFINITION. HLT (40_cycle_and_halt.md R87). -/

namespace Sys2Proof.Machine

/-- HLT: CPUSTATE <- halted. The target is ignored (R87). -/
def execHlt (_t : Int) (s : State) : Host.Outcome State Fault Refusal :=
  .next (s.stop .halted)

end Sys2Proof.Machine
end

