-- ==== Sys2Proof/Machine/InOut.lean ====
section
/-! DEFINITION. Input and output, GET and PUT (44_io.md R140 to R143). -/

namespace Sys2Proof.Machine

/-- GET: v <- In(); MemWrite(t, clamp(v)) (R140). One value is consumed, the oldest the environment has
supplied. With none supplied the engine blocks and nothing changes (R142, log 4). -/
def execGet (t : Int) (s : State) : Host.Outcome State Fault Refusal :=
  match s.input with
  | [] => .next s
  | v :: rest => writeOperand t (clamp v) ((s.setInput rest).emit (.input v))

/-- PUT: Out(MemRead(t)) (R141). One value is delivered, as it stands; no other effect. -/
def execPut (t : Int) (s : State) : Host.Outcome State Fault Refusal :=
  readOperand t s fun m => s.emit (.output m)

end Sys2Proof.Machine
end

