-- ==== Sys2Proof/Machine/Flags.lean ====
section
/-! DEFINITION. The conditions. The machine has no flags or condition codes: each conditional jump tests
the current value of AC (10_state.md R21, 41_jumps.md R100). No arithmetic records that it saturated
(43_arithmetic.md R129). -/

namespace Sys2Proof.Machine

/-- JEQ's condition (R101). -/
def acZero (ac : Int) : Bool := decide (ac = 0)
/-- JGT's condition (R102). -/
def acPositive (ac : Int) : Bool := decide (0 < ac)
/-- JLT's condition (R103). -/
def acNegative (ac : Int) : Bool := decide (ac < 0)
/-- JLE's condition (R105). -/
def acNotPositive (ac : Int) : Bool := decide (ac ≤ 0)
/-- JNE's condition (R106). -/
def acNonzero (ac : Int) : Bool := decide (ac ≠ 0)

end Sys2Proof.Machine
end

