-- ==== Sys2Proof/Machine/Jumps.lean ====
section
/-! DEFINITION. The six jumps (41_jumps.md R100 to R106). -/

namespace Sys2Proof.Machine

/-- JEQ: if AC = 0: PC <- t (R101). -/
def execJeq (t : Int) (s : State) : Host.Outcome State Fault Refusal :=
  .next (jumpIf (acZero s.ac) t s)

/-- JGT: if AC > 0: PC <- t (R102). -/
def execJgt (t : Int) (s : State) : Host.Outcome State Fault Refusal :=
  .next (jumpIf (acPositive s.ac) t s)

/-- JLT: if AC < 0: PC <- t (R103). -/
def execJlt (t : Int) (s : State) : Host.Outcome State Fault Refusal :=
  .next (jumpIf (acNegative s.ac) t s)

/-- JMP: PC <- t (R104). -/
def execJmp (t : Int) (s : State) : Host.Outcome State Fault Refusal :=
  .next (jumpIf true t s)

/-- JLE: if AC <= 0: PC <- t (R105). -/
def execJle (t : Int) (s : State) : Host.Outcome State Fault Refusal :=
  .next (jumpIf (acNotPositive s.ac) t s)

/-- JNE: if AC != 0: PC <- t (R106). -/
def execJne (t : Int) (s : State) : Host.Outcome State Fault Refusal :=
  .next (jumpIf (acNonzero s.ac) t s)

end Sys2Proof.Machine
end

