-- ==== Sys2Proof/Machine/LoadStore.lean ====
section
/-! DEFINITION. Loads and stores (42_load_store.md R110 to R114): whole words, copied without a clamp. -/

namespace Sys2Proof.Machine

/-- LAC: AC <- MemRead(t) (R111). -/
def execLac (t : Int) (s : State) : Host.Outcome State Fault Refusal :=
  readOperand t s fun m => s.setAc m

/-- PAC: MemWrite(t, AC) (R112). -/
def execPac (t : Int) (s : State) : Host.Outcome State Fault Refusal :=
  writeOperand t s.ac s

/-- LMQ: MQ <- MemRead(t) (R113). -/
def execLmq (t : Int) (s : State) : Host.Outcome State Fault Refusal :=
  readOperand t s fun m => s.setMq m

/-- PMQ: MemWrite(t, MQ) (R114). -/
def execPmq (t : Int) (s : State) : Host.Outcome State Fault Refusal :=
  writeOperand t s.mq s

end Sys2Proof.Machine
end

