-- ==== Sys2Proof/Machine/Dispatch.lean ====
section
/-! DEFINITION. Dispatch on the operation, step 3 of 40_cycle_and_halt.md R81 (R85): `exec i s` runs the
operation on a state in which PC is already advanced (log 11). -/

namespace Sys2Proof.Machine

def exec (i : Instr) (s : State) : Host.Outcome State Fault Refusal :=
  match i with
  | .hlt t => Sys2Proof.Machine.execHlt t s
  | .jeq t => Sys2Proof.Machine.execJeq t s
  | .jgt t => Sys2Proof.Machine.execJgt t s
  | .jlt t => Sys2Proof.Machine.execJlt t s
  | .jmp t => Sys2Proof.Machine.execJmp t s
  | .jle t => Sys2Proof.Machine.execJle t s
  | .jne t => Sys2Proof.Machine.execJne t s
  | .lac t => Sys2Proof.Machine.execLac t s
  | .pac t => Sys2Proof.Machine.execPac t s
  | .lmq t => Sys2Proof.Machine.execLmq t s
  | .pmq t => Sys2Proof.Machine.execPmq t s
  | .add t => Sys2Proof.Machine.execAdd t s
  | .sub t => Sys2Proof.Machine.execSub t s
  | .mul t => Sys2Proof.Machine.execMul t s
  | .div t => Sys2Proof.Machine.execDiv t s
  | .get t => Sys2Proof.Machine.execGet t s
  | .put t => Sys2Proof.Machine.execPut t s

end Sys2Proof.Machine
end

