-- ==== Sys2Proof/Machine/Step.lean ====
section
/-! DEFINITION. The Step (40_cycle_and_halt.md R80 to R88): one instruction cycle at the current PC. -/

namespace Sys2Proof.Machine

/-- Steps 2 to 3 of R81, after a decode that returned runnable. A GET with no value waits: nothing at all
changes, CPUSTATE stays runnable (44_io.md R142, log 4). The `unknown` arm is R86's defensive fallback;
no decode reaches it. -/
def perform (d : Decoded) (s : State) : Host.Outcome State Fault Refusal :=
  match d with
  | .known i => if s.awaitsInput i then .next s else exec i (s.enter i)
  | .unknown _ => .next (s.advancePc.stop .invalidInstruction)

/-- R81: decode at PC; a verdict other than runnable is taken as the new CPUSTATE and nothing else
happens (R82). -/
def cycle (s : State) : Host.Outcome State Fault Refusal :=
  match s.decodeAt s.pc with
  | (d, .runnable) => perform d s
  | (_, verdict) => .next (s.stop verdict)

/-- A Step is performed only when CPUSTATE is runnable; in any other value the block has no Step, which
the model says by refusing (R80, R91, log 8). -/
def step (s : State) : Host.Outcome State Fault Refusal :=
  match s.cpu with
  | .runnable => cycle s
  | .halted => .refused (.stepInTerminalState .halted)
  | .invalidInstruction => .refused (.stepInTerminalState .invalidInstruction)
  | .invalidAddress => .refused (.stepInTerminalState .invalidAddress)
  | .divideByZero => .refused (.stepInTerminalState .divideByZero)

/-- `s` with the word `w` where the next Step fetches, able to take that Step (log 20). The word is stored
as the loader stores one, clamped (45_program_loader.md R162); a PC outside memory, from which nothing can
be fetched, becomes the entry point 0 (70_reset_and_hazards.md R214), and CPUSTATE becomes runnable. -/
def State.withFetchWord (s : State) (_nbits w : Nat) : State :=
  let a := (cellOf s.pc).getD 0
  { s with mem := s.mem.write a (clamp (w : Int)), pc := (a : Int), cpu := .runnable }

end Sys2Proof.Machine
end

