-- ==== Sys2Proof/Machine/Loader.lean ====
section
/-! DEFINITION. The program loader (45_program_loader.md R150 to R163): the line grammar, a pure function
(R152 to R155), and the load as a sequence of single-word writes (R151, R156 to R162). -/

namespace Sys2Proof.Machine

/-! ### The line grammar -/

/-- `digit` (R152). -/
def isDigit (c : Char) : Bool := decide (48 ≤ c.toNat ∧ c.toNat ≤ 57)

/-- `ws`: space or horizontal tab (R152, D9). -/
def isBlank (c : Char) : Bool := decide (c.toNat = 32 ∨ c.toNat = 9)

/-- The longest prefix of digits, and what follows it. -/
def takeDigits : List Char → List Char × List Char
  | [] => ([], [])
  | c :: cs => if isDigit c then (c :: (takeDigits cs).1, (takeDigits cs).2) else ([], c :: cs)

/-- What follows the longest prefix of blanks. -/
def dropBlanks : List Char → List Char
  | [] => []
  | c :: cs => if isBlank c then dropBlanks cs else c :: cs

/-- The optional minus sign of a value (R154), and what follows it. -/
def takeSign : List Char → Bool × List Char
  | [] => (false, [])
  | c :: cs => if c = '-' then (true, cs) else (false, c :: cs)

/-- The number a string of decimal digits names; leading zeros are digits like any other (R153). -/
def decimal (ds : List Char) : Nat := ds.foldl (fun n c => 10 * n + (c.toNat - 48)) 0

/-- The conversion of a value token to an integer (R154). To a mathematical integer it cannot fail; the
result type keeps the failure that the bad-value kind is for (D11, log 15). -/
def convertValue (minus : Bool) (ds : List Char) : Option Int :=
  some (if minus then -(decimal ds : Int) else (decimal ds : Int))

/-- What may follow the value and its blanks: nothing, or a comment that begins with `//` (R152). -/
def isTail : List Char → Bool
  | [] => true
  | c :: cs => decide (c = '/') && decide (cs.head? = some '/')

/-- One item of the loader's input after parsing (R162). -/
inductive LoadItem where
  /-- The input source could not be read here (R157, D11). -/
  | readFailure
  /-- A line that does not fit the grammar (R152, R155). -/
  | noMatch
  /-- A matching line: the address, and the value if it could be converted. -/
  | assign (a : Nat) (v : Option Int)
  deriving DecidableEq, Repr

/-- ParseLine (R152): the whole line, `address ":" ws* value ws* comment?`. -/
def parseLine (line : List Char) : LoadItem :=
  let (addr, r1) := takeDigits line
  match addr, r1 with
  | _ :: _, ':' :: r2 =>
    let (minus, r3) := takeSign (dropBlanks r2)
    let (val, r4) := takeDigits r3
    match val with
    | [] => .noMatch
    | _ :: _ => if isTail (dropBlanks r4) then .assign (decimal addr) (convertValue minus val) else .noMatch
  | _, _ => .noMatch

/-- One item of the loader's input: a text line, its terminator removed, or a read failure (R151). -/
inductive InputItem where
  | line (text : String)
  | readFailure
  deriving DecidableEq, Repr

/-- An item as the loop of R151 takes it. -/
def InputItem.parse : InputItem → LoadItem
  | .line text => parseLine text.toList
  | .readFailure => .readFailure

/-! ### The load -/

/-- The result a load returns to its caller (R150); it is stored nowhere in the machine (R163). -/
inductive LoadResult where
  | ok
  | badFile
  | badLine
  | badAddress
  /-- Never returned: the conversion it reports cannot fail (R154). -/
  | badValue
  deriving DecidableEq, Repr

/-- The start of a load (R151): CPUSTATE halted, registers and memory zero. -/
def State.beginLoad (s : State) : State := { s with mem := [], pc := 0, ac := 0, mq := 0, cpu := .halted }

/-- One matching line of the loop of R151: the address is checked before the value, then the value is
clamped and stored (R156). -/
def storeLine (a : Nat) (v : Option Int) (s : State) : Except LoadResult State :=
  if memSize ≤ (a : Int) then .error .badAddress
  else
    match v with
    | none => .error .badValue
    | some x => .ok (s.setMem (s.mem.write a (clamp x)))

/-- One round of the loop of R151: a failure, or the state after the one word the item stores. -/
def loadItem (item : LoadItem) (s : State) : Except LoadResult State :=
  match item with
  | .readFailure => .error .badFile
  | .noMatch => .error .badLine
  | .assign a v => storeLine a v s

/-- The loop of R151: each item is applied at once, in input order; the first failure ends the load and
leaves what the items before it stored (R156, R158); success makes the machine runnable. -/
def loadItems : List LoadItem → State → LoadResult × State
  | [], s => (.ok, s.stop .runnable)
  | item :: rest, s =>
    match loadItem item s with
    | .error r => (r, s)
    | .ok s' => loadItems rest s'

/-- A load of parsed items (R162). -/
def loadParsed (items : List LoadItem) (s : State) : LoadResult × State := loadItems items s.beginLoad

/-- Load (R151). -/
def load (items : List InputItem) (s : State) : LoadResult × State :=
  loadParsed (items.map InputItem.parse) s

end Sys2Proof.Machine
end

