-- ==== Sys2Proof/Machine/Events.lean ====
section
/-! DEFINITION. The environment's events (10_state.md R24), observation (R28), and the run loop
(40_cycle_and_halt.md R89, R90). -/

namespace Sys2Proof.Machine

/-- What the environment reads between operations: all of the architectural state (R28). -/
structure Observation where
  mem : List Int
  pc  : Int
  ac  : Int
  mq  : Int
  cpu : CpuState
  deriving DecidableEq, Repr

/-- observe (R28). -/
def State.observe (s : State) : Observation :=
  { mem := s.mem.words, pc := s.pc, ac := s.ac, mq := s.mq, cpu := s.cpu }

/-- The closed list of what the environment may do (R24). `out` and `trace` are not here: they are the
block's own, recorded in the log. -/
inductive Event where
  /-- Creation of the machine, with the trace flag it is given (70_reset_and_hazards.md R210). -/
  | coldReset (trace : Bool)
  /-- The external reset (R211), in any state (D14). -/
  | warmReset
  /-- A load (45_program_loader.md R150), in any state (R212). -/
  | load (items : List InputItem)
  /-- in(v): the environment gives an integer to the input port (44_io.md R140). -/
  | supply (v : Int)
  /-- A request for one Step (40_cycle_and_halt.md R80). -/
  | step
  /-- A reading of the state (10_state.md R28). -/
  | observe
  /-- A query of the decoder (30_encoding.md R68). -/
  | decode (a : Int)
  deriving DecidableEq, Repr

/-- What an event answers its caller. -/
inductive Response where
  | done
  | loaded (r : LoadResult)
  | observed (o : Observation)
  | decoded (d : Decoded) (verdict : CpuState)
  deriving DecidableEq, Repr

/-- An outcome of a step as the outcome of the event that asked for it. -/
def stepped : Host.Outcome State Fault Refusal → Host.Outcome (State × Response) Fault Refusal
  | .next s => .next (s, .done)
  | .fault f => .fault f
  | .refused r => .refused r

/-- One event, atomic with respect to every other (R24). -/
def handle (e : Event) (s : State) : Host.Outcome (State × Response) Fault Refusal :=
  match e with
  | .coldReset trace => .next (s.coldReset trace, .done)
  | .warmReset => .next (s.warmReset, .done)
  | .load items => .next ((load items s).2, .loaded (load items s).1)
  | .supply v => .next (s.setInput (s.input ++ [v]), .done)
  | .step => stepped (step s)
  | .observe => .next (s, .observed s.observe)
  | .decode a => .next (s, .decoded (s.decodeAt a).1 (s.decodeAt a).2)

/-- The run loop (40_cycle_and_halt.md R89) for at most `fuel` Steps: CPUSTATE is checked before each
Step, and the loop ends when it is no longer runnable. The machine has no fuel (log 22). -/
def runLoop : Nat → State → Host.Outcome State Fault Refusal
  | 0, s => .next s
  | fuel + 1, s =>
    match s.cpu with
    | .runnable =>
      match step s with
      | .next s' => runLoop fuel s'
      | .fault f => .fault f
      | .refused r => .refused r
    | .halted | .invalidInstruction | .invalidAddress | .divideByZero => .next s

end Sys2Proof.Machine
end

