-- ==== Sys2Proof/Safety.lean ====
section
/-! DEFINITION. What counts as a safe state and a safe run: the range invariant (10_state.md R23, R15), the
states that events reach, the classification of a stop (60_exceptions.md R180, R181). -/

namespace Sys2Proof.Machine

/-- The invariant of the machine between operations: memory canonical (the model's own form, log 1), every word
and AC and MQ in range (10_state.md R23), PC in [0, 50] (R15), every delivered value in range (R26). -/
structure State.Inv (s : State) : Prop where
  memCanonical : s.mem.wf
  memInRange   : ∀ c ∈ s.mem, inRange c.2
  acInRange    : inRange s.ac
  mqInRange    : inRange s.mq
  pcLow        : 0 ≤ s.pc
  pcHigh       : s.pc ≤ memSize
  outInRange   : ∀ v, PortEvent.output v ∈ s.log → inRange v

/-- The states the machine can be in: a machine just created, of either NEGWORD and either TRACE, with any
inputs waiting, and every state an event of 10_state.md R24 leads to from such a state. -/
inductive State.Reachable : State → Prop
  | created (c : Config) (vs : List Int) : State.Reachable { State.reset with config := c, input := vs }
  | event {s s' : State} {e : Event} {r : Response} (hs : State.Reachable s)
      (he : handle e s = .next (s', r)) : State.Reachable s'

/-- The three error ends (60_exceptions.md R180); `halted` is the normal one. -/
def isError : CpuState → Bool
  | .runnable | .halted => false
  | .invalidInstruction | .invalidAddress | .divideByZero => true

/-- A safe state: not stopped by an error (40_cycle_and_halt.md R90). -/
def State.safe (s : State) : Prop := isError s.cpu = false

/-- The address of the instruction a Step stopped at (60_exceptions.md R181): PC after a decode error,
PC - 1 after a HLT or a division by zero, none while runnable. -/
def State.stoppedAt (s : State) : Option Int :=
  match s.cpu with
  | .runnable => none
  | .halted | .divideByZero => some (s.pc - 1)
  | .invalidInstruction | .invalidAddress => some s.pc

end Sys2Proof.Machine

namespace Sys2Proof

/-- The memory word an operation stores to (10_state.md R14): only PAC, PMQ and GET store. -/
def Instr.storesTo : Instr → Option Nat
  | .pac t | .pmq t | .get t => Machine.cellOf t
  | .hlt _ | .jeq _ | .jgt _ | .jlt _ | .jmp _ | .jle _ | .jne _ | .lac _ | .lmq _
  | .add _ | .sub _ | .mul _ | .div _ | .put _ => none

end Sys2Proof
end

