-- ==== Sys2Proof/Certificates/Slice0/Obligations.lean ====
section
/-! DEFINITION. The statements for the provers, from the numbered rules of spec/. Where a statement rests on
a decision of the spec or of the model, its docstring names it. -/

open Sys2Proof Sys2Proof.Machine

/-! ### Words used by the statements -/

/-- The 17 opcodes of 30_encoding.md R62. -/
abbrev Sys2Proof.assignedOpcodes : List Int := [0, 1, 2, 3, 5, 6, 7, 10, 11, 12, 13, 20, 21, 22, 23, 30, 31]

/-- The line grammar of 45_program_loader.md R152 (with decision D9 for blanks and the comment), written as
a decomposition of the whole line: address, colon, blanks, optional minus, value, blanks, and at the end
nothing or a comment. `a` and `v` are the numbers the two tokens name. -/
def Sys2Proof.LineFits (line : List Char) (a : Nat) (v : Int) : Prop :=
  ∃ addr ws1 sign val ws2 tail : List Char,
    line = addr ++ ':' :: (ws1 ++ (sign ++ (val ++ (ws2 ++ tail)))) ∧
    addr ≠ [] ∧ (∀ c ∈ addr, isDigit c = true) ∧
    (∀ c ∈ ws1, isBlank c = true) ∧
    (sign = [] ∨ sign = ['-']) ∧
    val ≠ [] ∧ (∀ c ∈ val, isDigit c = true) ∧
    (∀ c ∈ ws2, isBlank c = true) ∧
    (tail = [] ∨ ∃ text, tail = '/' :: '/' :: text) ∧
    a = decimal addr ∧ v = if sign = [] then (decimal val : Int) else -(decimal val : Int)

/-- The value the last assignment to `a` gives, clamped, or 0 where none names `a` (45_program_loader.md
R159, R160). -/
def Sys2Proof.lastAssigned : List (Nat × Int) → Nat → Int
  | [], _ => 0
  | p :: rest, a => if a ∈ rest.map Prod.fst then lastAssigned rest a else if p.1 = a then clamp p.2 else 0

/-- The architectural part of a state (10_state.md R10): all of it but the parameters and the environment's
side of the ports. -/
def Sys2Proof.sameMachine (s t : State) : Prop :=
  s.mem = t.mem ∧ s.pc = t.pc ∧ s.ac = t.ac ∧ s.mq = t.mq ∧ s.cpu = t.cpu

/-- Where PC is after a Step at `a` that runs `i` with accumulator `ac` (10_state.md R16; the conditions are
those of 41_jumps.md R100). -/
def Sys2Proof.nextPc (i : Instr) (ac a : Int) : Int :=
  match i with
  | .jeq t => if ac = 0 then t else a + 1
  | .jgt t => if ac > 0 then t else a + 1
  | .jlt t => if ac < 0 then t else a + 1
  | .jmp t => t
  | .jle t => if ac ≤ 0 then t else a + 1
  | .jne t => if ac ≠ 0 then t else a + 1
  | .hlt _ | .lac _ | .pac _ | .lmq _ | .pmq _ | .add _ | .sub _ | .mul _ | .div _ | .get _ | .put _ => a + 1

/-! ### Reset and the invariant -/

/-- 70_reset_and_hazards.md R210: cold reset, from any state and with either trace flag, and the reset state
itself; stepped straight after it, the machine halts with PC = 1. -/
def Obligations.ColdResetZeroesEverything : Prop :=
  (∀ (tr : Bool) (s : State), ∃ s', handle (.coldReset tr) s = .next (s', .done) ∧
    (∀ a, s'.mem.read a = 0) ∧ s'.pc = 0 ∧ s'.ac = 0 ∧ s'.mq = 0 ∧ s'.cpu = .runnable ∧
    s'.config.trace = tr ∧
    ∃ s'', step s' = .next s'' ∧ s''.pc = 1 ∧ s''.cpu = .halted ∧ s''.ac = 0 ∧ s''.mq = 0 ∧ s''.mem = s'.mem) ∧
  (∀ a, State.reset.mem.read a = 0) ∧ State.reset.pc = 0 ∧ State.reset.ac = 0 ∧ State.reset.mq = 0 ∧
    State.reset.cpu = .runnable

/-- 70_reset_and_hazards.md R211: warm reset zeroes the registers, makes the machine runnable and leaves memory
(and the ports' side) untouched. That it is allowed in every state is the spec's decision D14 (log 16). -/
def Obligations.WarmResetKeepsMemory : Prop :=
  ∀ s : State, handle .warmReset s = .next ({ s with pc := 0, ac := 0, mq := 0, cpu := .runnable }, .done)

/-- The invariant holds of every machine just created, of either NEGWORD and TRACE, with any inputs waiting: words,
AC and MQ in range (10_state.md R23, R29), PC in [0, 50] (R15), no delivered value out of range (R26). That memory
is canonical is the model's own form (log 1), and so are the waiting inputs (log 3). -/
def Obligations.CreatedMachineMeetsInvariant : Prop :=
  ∀ (c : Config) (vs : List Int), State.Inv { State.reset with config := c, input := vs }

/-- Every Step keeps the invariant: memory canonical (log 1), every word, AC and MQ in range (10_state.md R23),
PC in [0, 50] (R15), every delivered value in range (R26). -/
def Obligations.StepKeepsInvariant : Prop :=
  ∀ s s' : State, s.Inv → step s = .next s' → s'.Inv

/-- 10_state.md R23: after any sequence of events, loads and inputs of any integers among them, every memory
word, AC and MQ is in [-99999, 99999]. -/
def Obligations.ReachableWordsStayInRange : Prop :=
  ∀ s : State, s.Reachable → (∀ a, inRange (s.mem.read a)) ∧ inRange s.ac ∧ inRange s.mq

/-- 10_state.md R15 [derived there]: in every state that events reach, 0 ≤ PC ≤ 50. With it, memory is
canonical, the model's own form (log 1). -/
def Obligations.ReachablePcIsAtMostOnePastMemory : Prop :=
  ∀ s : State, s.Reachable → 0 ≤ s.pc ∧ s.pc ≤ 50 ∧ s.mem.wf

/-- Two canonical memories that read alike at every address are the same list, so equal memories are equal
data (the model's own form, log 1). -/
def Obligations.CanonicalMemoriesReadingAlikeAreEqual : Prop :=
  ∀ m n : Memory, m.wf → n.wf → (∀ a, m.read a = n.read a) → m = n

/-! ### Encoding and the decoder -/

/-- Decoding the word of a well-formed instruction gives that instruction back, with the verdict runnable, for
all 17 operations, every target in [0, 50) and both values of NEGWORD (30_encoding.md R60 to R62, R67). -/
def Obligations.DecodingAnEncodingGivesItBack : Prop :=
  ∀ (nw : NegWord) (i : Instr), i.wellFormed → decodeWord nw (encode i) = (.known i, .runnable)

/-- Every integer that decodes as runnable is the word of exactly the well-formed instruction it decodes to: no
word outside the 850 of R62 runs (30_encoding.md R62, R74). -/
def Obligations.EveryRunnableWordIsAnEncoding : Prop :=
  ∀ (nw : NegWord) (w : Int) (d : Decoded), decodeWord nw w = (d, .runnable) →
    ∃ i, d = .known i ∧ i.wellFormed ∧ encode i = w

/-- The opcode table (30_encoding.md R62), row by row: the valid words of each row decode to its operation with
the word's last digits as target. -/
def Obligations.OpcodeTableRowsDecode : Prop :=
  ∀ (nw : NegWord) (a : Int), 0 ≤ a → a < 50 →
    decodeWord nw (0 + a) = (.known (.hlt a), .runnable) ∧
    decodeWord nw (1000 + a) = (.known (.jeq a), .runnable) ∧
    decodeWord nw (2000 + a) = (.known (.jgt a), .runnable) ∧
    decodeWord nw (3000 + a) = (.known (.jlt a), .runnable) ∧
    decodeWord nw (5000 + a) = (.known (.jmp a), .runnable) ∧
    decodeWord nw (6000 + a) = (.known (.jle a), .runnable) ∧
    decodeWord nw (7000 + a) = (.known (.jne a), .runnable) ∧
    decodeWord nw (10000 + a) = (.known (.lac a), .runnable) ∧
    decodeWord nw (11000 + a) = (.known (.pac a), .runnable) ∧
    decodeWord nw (12000 + a) = (.known (.lmq a), .runnable) ∧
    decodeWord nw (13000 + a) = (.known (.pmq a), .runnable) ∧
    decodeWord nw (20000 + a) = (.known (.add a), .runnable) ∧
    decodeWord nw (21000 + a) = (.known (.sub a), .runnable) ∧
    decodeWord nw (22000 + a) = (.known (.mul a), .runnable) ∧
    decodeWord nw (23000 + a) = (.known (.div a), .runnable) ∧
    decodeWord nw (30000 + a) = (.known (.get a), .runnable) ∧
    decodeWord nw (31000 + a) = (.known (.put a), .runnable)

/-- A few words of 95_test_vectors.md 2.2, written out from the encoding, decode as the table there says. -/
def Obligations.WrittenWordsDecode : Prop :=
  decodeWord .trunc 49 = (.known (.hlt 49), .runnable) ∧
  decodeWord .trunc 999 = (.known (.hlt 999), .invalidAddress) ∧
  decodeWord .trunc 1008 = (.known (.jeq 8), .runnable) ∧
  (decodeWord .trunc 4049).2 = .invalidInstruction ∧
  decodeWord .trunc 13013 = (.known (.pmq 13), .runnable) ∧
  decodeWord .trunc 23050 = (.known (.div 50), .invalidAddress) ∧
  decodeWord .trunc 31049 = (.known (.put 49), .runnable) ∧
  (decodeWord .trunc 99103).2 = .invalidInstruction

/-- The partition of the words in [0, 99999] by verdict (30_encoding.md R74 [derived there]). -/
def Obligations.EveryNonnegativeWordIsClassified : Prop :=
  ∀ (nw : NegWord) (w : Int), 0 ≤ w → w ≤ 99999 →
    ((decodeWord nw w).2 = .runnable ↔ w / 1000 ∈ assignedOpcodes ∧ w % 1000 ≤ 49) ∧
    ((decodeWord nw w).2 = .invalidAddress ↔ w / 1000 ∈ assignedOpcodes ∧ 50 ≤ w % 1000) ∧
    ((decodeWord nw w).2 = .invalidInstruction ↔ w / 1000 ∉ assignedOpcodes)

/-- 30_encoding.md R63: every word of the ranges 4000-4999, 8000-9999, 14000-19999, 24000-29999 and 32000-99999
ends the Step that fetches it in invalid-instruction, and that Step changes nothing else. -/
def Obligations.UnassignedOpcodesStopTheMachine : Prop :=
  ∀ (s : State) (w : Int), s.cpu = .runnable → 0 ≤ s.pc → s.pc < 50 → s.mem.read s.pc.toNat = w →
    (4000 ≤ w ∧ w ≤ 4999 ∨ 8000 ≤ w ∧ w ≤ 9999 ∨ 14000 ≤ w ∧ w ≤ 19999 ∨ 24000 ≤ w ∧ w ≤ 29999 ∨
      32000 ≤ w ∧ w ≤ 99999) →
    step s = .next { s with cpu := .invalidInstruction }

/-- 30_encoding.md R64: for each of the 17 opcodes a target outside [0, 50) gives (op, target) with invalid-address,
and the Step that fetches such a word changes CPUSTATE alone, HLT and the jumps included; every target of 0 to
49 is valid; the words 50 to 999 are not HLT instructions. -/
def Obligations.OutOfRangeTargetIsInvalidAddress : Prop :=
  (∀ (s : State) (opc tgt : Int), opc ∈ assignedOpcodes → s.cpu = .runnable → 0 ≤ s.pc → s.pc < 50 →
    splitWord s.config.negWord (s.mem.read s.pc.toNat) = (opc, tgt) →
    ((tgt < 0 ∨ 50 ≤ tgt) →
      (∃ i, s.decodeAt s.pc = (.known i, .invalidAddress) ∧ i.opcode = opc ∧ i.target = tgt) ∧
      step s = .next { s with cpu := .invalidAddress }) ∧
    (0 ≤ tgt → tgt ≤ 49 → ∃ i, s.decodeAt s.pc = (.known i, .runnable) ∧ i.opcode = opc ∧ i.target = tgt)) ∧
  (∀ (nw : NegWord) (w : Int), 50 ≤ w → w ≤ 999 → decodeWord nw w = (.known (.hlt w), .invalidAddress))

/-- 30_encoding.md R65, what it calls settled [derived there]: a negative word never runs; the verdict and the
address field under each NEGWORD; the Step that fetches one changes CPUSTATE to that verdict and nothing else. -/
def Obligations.NegativeWordsNeverRun : Prop :=
  (∀ w : Int, -999 ≤ w → w ≤ -1 → decodeWord .trunc w = (.known (.hlt w), .invalidAddress)) ∧
  (∀ w : Int, w ≤ -1000 → ∃ a, decodeWord .trunc w = (.unknown a, .invalidInstruction) ∧ -999 ≤ a ∧ a ≤ 0) ∧
  (∀ w : Int, w < 0 → ∃ a, decodeWord .floor w = (.unknown a, .invalidInstruction) ∧ 0 ≤ a ∧ a ≤ 999) ∧
  (∀ s : State, s.cpu = .runnable → 0 ≤ s.pc → s.pc < 50 → s.mem.read s.pc.toNat < 0 →
    ∃ v, (v = .invalidInstruction ∨ v = .invalidAddress) ∧ step s = .next { s with cpu := v })

/-- 30_encoding.md R68: the decoder at an address; a query changes nothing. -/
def Obligations.DecodeAtAnAddress : Prop :=
  ∀ (s : State) (a : Int),
    ((a < 0 ∨ 50 ≤ a) → handle (.decode a) s = .next (s, .decoded (.unknown 0) .invalidInstruction)) ∧
    (0 ≤ a → a < 50 → handle (.decode a) s = .next (s,
      .decoded (decodeWord s.config.negWord (s.mem.read a.toNat)).1
        (decodeWord s.config.negWord (s.mem.read a.toNat)).2))

/-- 30_encoding.md R69: the order of the decoder's tests: address, opcode, target, otherwise runnable. -/
def Obligations.DecoderTestsAreOrdered : Prop :=
  ∀ (s : State) (a : Int), (s.decodeAt a).2 =
    if a < 0 ∨ 50 ≤ a then .invalidInstruction
    else if (splitWord s.config.negWord (s.mem.read a.toNat)).1 ∉ assignedOpcodes then .invalidInstruction
    else if (splitWord s.config.negWord (s.mem.read a.toNat)).2 < 0 ∨
        50 ≤ (splitWord s.config.negWord (s.mem.read a.toNat)).2 then .invalidAddress
    else .runnable

/-- 40_cycle_and_halt.md R86: the unknown tag never reaches dispatch; what does is well formed. -/
def Obligations.UnknownNeverReachesDispatch : Prop :=
  ∀ (s : State) (a : Int), (∀ x, s.decodeAt a ≠ (.unknown x, .runnable)) ∧
    (∀ i, s.decodeAt a = (.known i, .runnable) → i.wellFormed)

/-- 42_load_store.md R110, 20_memory.md R46: an operand's effective address is its target, and an address outside
[0, 50) names no word: no wrap-around, no aliasing. -/
def Obligations.EffectiveAddressIsTheTarget : Prop :=
  ∀ t : Int, (∀ a : Nat, cellOf t = some a ↔ 0 ≤ t ∧ t < 50 ∧ (a : Int) = t) ∧
    (cellOf t = none ↔ t < 0 ∨ 50 ≤ t)

/-! ### The Step -/

/-- A Step runs the decoded instruction (40_cycle_and_halt.md R81, R83): PC advanced, then the instruction
reported if TRACE is on (position: decision D12), then the operation. A GET without a value is the one
exception (44_io.md R142), stated by `GetWaitsForInput`. -/
def Obligations.StepRunsTheDecodedInstruction : Prop :=
  ∀ (s : State) (i : Instr), s.cpu = .runnable → s.decodeAt s.pc = (.known i, .runnable) →
    ((∃ t, i = .get t) → s.input ≠ []) →
    step s = exec i { s with pc := s.pc + 1,
                             log := if s.config.trace then s.log ++ [.trace i] else s.log }

/-- The same from the bytes, here the word, at PC: a word that is the encoding of a well-formed instruction is
run as that instruction (40_cycle_and_halt.md R81, 30_encoding.md R60). -/
def Obligations.StepRunsTheEncodedInstruction : Prop :=
  ∀ (s : State) (i : Instr), s.cpu = .runnable → 0 ≤ s.pc → s.pc < 50 → i.wellFormed →
    s.mem.read s.pc.toNat = encode i → ((∃ t, i = .get t) → s.input ≠ []) →
    step s = exec i { s with pc := s.pc + 1,
                             log := if s.config.trace then s.log ++ [.trace i] else s.log }

/-- 40_cycle_and_halt.md R82: a decode failure sets CPUSTATE to the verdict, which is one of the two error values,
and changes nothing else: PC, AC, MQ, memory, input, output and trace all as before. -/
def Obligations.DecodeFailureChangesOnlyStatus : Prop :=
  ∀ (s : State) (d : Decoded) (v : CpuState), s.cpu = .runnable → s.decodeAt s.pc = (d, v) → v ≠ .runnable →
    (v = .invalidInstruction ∨ v = .invalidAddress) ∧ step s = .next { s with cpu := v }

/-- 10_state.md R16: where PC goes, for all 17 operations: past the instruction unless it is a taken jump; left
unchanged by a decode that fails (and by a GET that still waits, which is no completed Step). -/
def Obligations.PcAdvancesUnlessAJumpIsTaken : Prop :=
  ∀ s s' : State, step s = .next s' →
    (∀ i, s.decodeAt s.pc = (.known i, .runnable) → ((∃ t, i = .get t) → s.input ≠ []) →
      s'.pc = nextPc i s.ac s.pc) ∧
    ((s.decodeAt s.pc).2 ≠ .runnable → s'.pc = s.pc)

/-- 60_exceptions.md R187: at most one terminal event per Step, and the order of the tests decides which: PC range,
opcode, target, then for DIV (opcode 23) the zero divisor. Only HLT (opcode 0) halts; every other Step leaves
CPUSTATE runnable. -/
def Obligations.StatusAfterAStep : Prop :=
  ∀ s s' : State, step s = .next s' → s'.cpu =
    if s.pc < 0 ∨ 50 ≤ s.pc then .invalidInstruction
    else
      let opc := (splitWord s.config.negWord (s.mem.read s.pc.toNat)).1
      let tgt := (splitWord s.config.negWord (s.mem.read s.pc.toNat)).2
      if opc ∉ assignedOpcodes then .invalidInstruction
      else if tgt < 0 ∨ 50 ≤ tgt then .invalidAddress
      else if opc = 23 ∧ s.mem.read tgt.toNat = 0 then .divideByZero
      else if opc = 0 then .halted
      else .runnable

/-- A run goes wrong in exactly the ways 60_exceptions.md R180 lists: a Step ends in an error state exactly when the
word at PC does not decode as runnable, or is a DIV whose memory word is 0. -/
def Obligations.OnlyBadFetchOrZeroDivisorIsUnsafe : Prop :=
  ∀ s s' : State, step s = .next s' →
    (¬ s'.safe ↔ (s.decodeAt s.pc).2 ≠ .runnable ∨
      ∃ t, s.decodeAt s.pc = (.known (.div t), .runnable) ∧ s.mem.read t.toNat = 0)

/-- No `step` of the model from a runnable state faults or is refused, reachable or not: every anomaly is a value of
CPUSTATE (40_cycle_and_halt.md R88). Two parts are choices, not R88's: for a GET with no input the spec has no Step
(44_io.md R142, the exception R88 names), and that the model answers a next state there is log 4; that every PUT
completes is decision D8 (log 5). -/
def Obligations.EveryRunnableStepAnswersNext : Prop :=
  ∀ s : State, s.cpu = .runnable → ∃ s', step s = .next s'

/-- A terminal state has no Step (40_cycle_and_halt.md R80, R91). That the model refuses there is the spec's
decision D1 (log 8). -/
def Obligations.TerminalStateHasNoStep : Prop :=
  ∀ s : State, s.cpu ≠ .runnable → step s = .refused (.stepInTerminalState s.cpu)

/-- 60_exceptions.md R189: only a cold reset, a warm reset or a load changes CPUSTATE once it is terminal; a reset
makes it runnable again at address 0, the warm one with the memory of the stopped run. -/
def Obligations.OnlyResetOrLoadLeavesATerminalState : Prop :=
  ∀ (e : Event) (s s' : State) (r : Response), s.cpu ≠ .runnable → handle e s = .next (s', r) →
    ((∃ tr, e = .coldReset tr) ∧ s'.cpu = .runnable ∧ s'.pc = 0) ∨
    (e = .warmReset ∧ s'.cpu = .runnable ∧ s'.pc = 0 ∧ s'.mem = s.mem) ∨
    (∃ items, e = .load items) ∨
    sameMachine s' s

/-- 60_exceptions.md R188: every stop is precise. The Step that stops writes CPUSTATE and, for HLT and DIV, the PC
advance, and nothing else; the stopping instruction's address is what R181 reconstructs [derived there]. -/
def Obligations.StopsArePrecise : Prop :=
  ∀ s s' : State, step s = .next s' → s'.cpu ≠ .runnable →
    s'.mem = s.mem ∧ s'.ac = s.ac ∧ s'.mq = s.mq ∧ s'.config = s.config ∧ s'.input = s.input ∧
    (s'.pc = if s'.cpu = .halted ∨ s'.cpu = .divideByZero then s.pc + 1 else s.pc) ∧
    s'.stoppedAt = some s.pc

/-- A whole-machine rule (10_state.md R11, R14; 20_memory.md R44, R45): a Step changes no memory word but the one
a PAC, PMQ or GET stores to. -/
def Obligations.OnlyStoresChangeMemory : Prop :=
  ∀ s s' : State, step s = .next s' →
    ((s.decodeAt s.pc).2 ≠ .runnable → s'.mem = s.mem) ∧
    ∀ i, s.decodeAt s.pc = (.known i, .runnable) →
      ∀ a : Nat, i.storesTo ≠ some a → s'.mem.read a = s.mem.read a

/-- A whole-machine rule (10_state.md R12, R13, R14): a Step that changes AC runs LAC, ADD, SUB or DIV; one that
changes MQ runs LMQ, MUL or DIV. None changes NEGWORD or TRACE, parameters of the machine that no instruction writes
(00_scope.md R4, 10_state.md R27); that they stand in State is the model's (logs 6, 7). -/
def Obligations.RegistersChangeOnlyByTheirOperations : Prop :=
  ∀ s s' : State, step s = .next s' →
    (s'.ac ≠ s.ac → ∃ t, (s.decodeAt s.pc).1 = .known (.lac t) ∨ (s.decodeAt s.pc).1 = .known (.add t) ∨
      (s.decodeAt s.pc).1 = .known (.sub t) ∨ (s.decodeAt s.pc).1 = .known (.div t)) ∧
    (s'.mq ≠ s.mq → ∃ t, (s.decodeAt s.pc).1 = .known (.lmq t) ∨ (s.decodeAt s.pc).1 = .known (.mul t) ∨
      (s.decodeAt s.pc).1 = .known (.div t)) ∧
    s'.config = s.config

/-- 20_memory.md R52: a store is seen by the very next instruction fetch, wherever it went: after a Step that runs
PAC, PMQ or GET, decoding at the stored address decodes the stored value. -/
def Obligations.StoreIsSeenByTheNextFetch : Prop :=
  ∀ (s s' : State) (t : Int), step s = .next s' →
    (s.decodeAt s.pc = (.known (.pac t), .runnable) → s'.decodeAt t = decodeWord s.config.negWord s.ac) ∧
    (s.decodeAt s.pc = (.known (.pmq t), .runnable) → s'.decodeAt t = decodeWord s.config.negWord s.mq) ∧
    (∀ v rest, s.decodeAt s.pc = (.known (.get t), .runnable) → s.input = v :: rest →
      s'.decodeAt t = decodeWord s.config.negWord (clamp v))

/-- What one Step does at the ports, in order (20_memory.md R55 [derived there], 10_state.md R27, 44_io.md R140,
R141): with TRACE on the trace event first (position: D12, log 7), then the GET's input or the PUT's output, in the
model's lists (logs 3, 5). A GET with no input has no Step in the spec (R142); that the model's takes one, recording
nothing, is log 4. -/
def Obligations.PortEventsOfAStep : Prop :=
  ∀ s s' : State, step s = .next s' →
    ((s.decodeAt s.pc).2 ≠ .runnable → s'.log = s.log ∧ s'.input = s.input) ∧
    ∀ i, s.decodeAt s.pc = (.known i, .runnable) →
      match i, s.input with
      | .get _, [] => s'.log = s.log ∧ s'.input = []
      | .get _, v :: rest => s'.log = s.log ++ (if s.config.trace then [.trace i] else []) ++ [.input v] ∧
          s'.input = rest
      | .put t, vs => s'.log = s.log ++ (if s.config.trace then [.trace i] else []) ++
          [.output (s.mem.read t.toNat)] ∧ s'.input = vs
      | _, vs => s'.log = s.log ++ (if s.config.trace then [.trace i] else []) ∧ s'.input = vs

/-- The trace is a side channel (10_state.md R27): two machines that differ only in the trace flag and in what the
environment has recorded take Steps that differ only in those. -/
def Obligations.TraceNeverAffectsTheMachine : Prop :=
  ∀ (s : State) (tr : Bool) (l : List PortEvent),
    match step s, step { s with config := { s.config with trace := tr }, log := l } with
    | .next a, .next b => sameMachine a b ∧ a.input = b.input
    | .refused a, .refused b => a = b
    | .fault a, .fault b => a = b
    | _, _ => False

/-- NEGWORD matters only where PC points at a negative word (30_encoding.md R65): else two machines that differ
only in it take the same Step, and there both Steps stop and differ only in CPUSTATE. -/
def Obligations.NegWordMattersOnlyForNegativeWords : Prop :=
  ∀ (s s' : State) (nw : NegWord), step s = .next s' →
    ((s.pc < 0 ∨ 50 ≤ s.pc ∨ 0 ≤ s.mem.read s.pc.toNat) →
      step { s with config := { s.config with negWord := nw } } =
        .next { s' with config := { s'.config with negWord := nw } }) ∧
    ((0 ≤ s.pc ∧ s.pc < 50 ∧ s.mem.read s.pc.toNat < 0) →
      ∃ v, v ≠ .runnable ∧ step { s with config := { s.config with negWord := nw } } =
        .next { s' with config := { s'.config with negWord := nw }, cpu := v })

/-! ### Each operation: its result, its frame, and that it completes. PC is already advanced (R81) -/

/-- 40_cycle_and_halt.md R87: HLT sets CPUSTATE to halted, whatever its target, and changes nothing else; the Step
that runs it leaves PC one past it. -/
def Obligations.HltHalts : Prop :=
  (∀ (t : Int) (s : State), encode (.hlt t) = 0 + t ∧ exec (.hlt t) s = .next { s with cpu := .halted }) ∧
  (∀ (t : Int) (s : State), 0 ≤ t → t ≤ 49 → s.cpu = .runnable → 0 ≤ s.pc → s.pc < 50 →
    s.mem.read s.pc.toNat = t →
    ∃ s', step s = .next s' ∧ s'.cpu = .halted ∧ s'.pc = s.pc + 1 ∧ s'.ac = s.ac ∧ s'.mq = s.mq ∧ s'.mem = s.mem)

/-- 41_jumps.md R101 to R106 under the common rule R100: each jump completes, sets PC to its target exactly when
its condition on AC holds, and changes nothing else. -/
def Obligations.JumpsFollowTheirConditions : Prop :=
  ∀ (t : Int) (s : State),
    (encode (.jeq t) = 1000 + t ∧ exec (.jeq t) s = .next { s with pc := if s.ac = 0 then t else s.pc }) ∧
    (encode (.jgt t) = 2000 + t ∧ exec (.jgt t) s = .next { s with pc := if s.ac > 0 then t else s.pc }) ∧
    (encode (.jlt t) = 3000 + t ∧ exec (.jlt t) s = .next { s with pc := if s.ac < 0 then t else s.pc }) ∧
    (encode (.jmp t) = 5000 + t ∧ exec (.jmp t) s = .next { s with pc := t }) ∧
    (encode (.jle t) = 6000 + t ∧ exec (.jle t) s = .next { s with pc := if s.ac ≤ 0 then t else s.pc }) ∧
    (encode (.jne t) = 7000 + t ∧ exec (.jne t) s = .next { s with pc := if s.ac ≠ 0 then t else s.pc })

/-- 42_load_store.md R111, R113: LAC and LMQ complete for every target in [0, 50), copy MEM[t] unclamped into AC
or MQ, and change nothing else. -/
def Obligations.LoadsCopyTheMemoryWord : Prop :=
  ∀ (t : Int) (s : State), 0 ≤ t → t < 50 →
    (encode (.lac t) = 10000 + t ∧ exec (.lac t) s = .next { s with ac := s.mem.read t.toNat }) ∧
    (encode (.lmq t) = 12000 + t ∧ exec (.lmq t) s = .next { s with mq := s.mem.read t.toNat })

/-- 42_load_store.md R112, R114: PAC and PMQ complete, store AC or MQ at the address of their operand, leave every
other memory word as it was, and change nothing else. -/
def Obligations.StoresCopyTheRegister : Prop :=
  ∀ (t : Int) (a : Nat) (s : State), cellOf t = some a →
    encode (.pac t) = 11000 + t ∧ encode (.pmq t) = 13000 + t ∧
    (∃ s', exec (.pac t) s = .next s' ∧ s'.mem.read a = s.ac ∧
      (∀ b, b ≠ a → s'.mem.read b = s.mem.read b) ∧ s' = { s with mem := s'.mem }) ∧
    (∃ s', exec (.pmq t) s = .next s' ∧ s'.mem.read a = s.mq ∧
      (∀ b, b ≠ a → s'.mem.read b = s.mem.read b) ∧ s' = { s with mem := s'.mem })

/-- 43_arithmetic.md R120: clamp, by its three cases; and the laws of R121 (those marked derived there among
them). -/
def Obligations.ClampSaturates : Prop :=
  (∀ x : Int, (99999 < x → clamp x = 99999) ∧ (x < -99999 → clamp x = -99999) ∧
    (-99999 ≤ x → x ≤ 99999 → clamp x = x)) ∧
  (∀ x : Int, clamp (clamp x) = clamp x ∧ -99999 ≤ clamp x ∧ clamp x ≤ 99999 ∧ clamp (-x) = -clamp x ∧
    (clamp x = 99999 ↔ 99999 ≤ x) ∧ (clamp x = -99999 ↔ x ≤ -99999)) ∧
  (∀ x y : Int, x ≤ y → clamp x ≤ clamp y)

/-- 43_arithmetic.md R123, R124: ADD and SUB complete for every target in [0, 50), leave the exact sum or
difference, saturated, in AC, and change nothing else; saturation leaves no other mark (R129). -/
def Obligations.AddAndSubSaturateIntoAc : Prop :=
  ∀ (t : Int) (s : State), 0 ≤ t → t < 50 →
    encode (.add t) = 20000 + t ∧ encode (.sub t) = 21000 + t ∧
    exec (.add t) s = .next { s with ac := max (-99999) (min 99999 (s.ac + s.mem.read t.toNat)) } ∧
    exec (.sub t) s = .next { s with ac := max (-99999) (min 99999 (s.ac - s.mem.read t.toNat)) }

/-- 43_arithmetic.md R125: MUL completes for every target in [0, 50), leaves the exact product, saturated, in MQ,
and changes nothing else, AC included. -/
def Obligations.MulSaturatesIntoMq : Prop :=
  ∀ (t : Int) (s : State), 0 ≤ t → t < 50 →
    encode (.mul t) = 22000 + t ∧
    exec (.mul t) s = .next { s with mq := max (-99999) (min 99999 (s.mq * s.mem.read t.toNat)) }

/-- 43_arithmetic.md R126: DIV completes for every target in [0, 50): the truncated quotient of the old MQ to MQ and
its remainder to AC, nothing else changed; by a zero divisor it sets CPUSTATE to divide-by-zero and leaves AC,
MQ, memory and the advanced PC as they are (conflict C4, log 9). -/
def Obligations.DivLeavesQuotientAndRemainder : Prop :=
  ∀ (t : Int) (s : State), 0 ≤ t → t < 50 →
    encode (.div t) = 23000 + t ∧
    (s.mem.read t.toNat ≠ 0 → exec (.div t) s = .next { s with
      mq := s.mq.tdiv (s.mem.read t.toNat), ac := s.mq.tmod (s.mem.read t.toNat) }) ∧
    (s.mem.read t.toNat = 0 → exec (.div t) s = .next { s with cpu := .divideByZero })

/-- The laws of the two results, without the division functions (00_scope.md R6, 43_arithmetic.md R126): old MQ =
q * m + r, |r| < |m|, r zero or of the dividend's sign, |q| ≤ |old MQ|, so that neither result leaves the range. -/
def Obligations.DivisionIdentityHolds : Prop :=
  ∀ (t : Int) (s s' : State), 0 ≤ t → t < 50 → s.mem.read t.toNat ≠ 0 → exec (.div t) s = .next s' →
    s.mq = s'.mq * s.mem.read t.toNat + s'.ac ∧
    |s'.ac| < |s.mem.read t.toNat| ∧
    (s'.ac = 0 ∨ (0 < s'.ac ↔ 0 < s.mq)) ∧
    |s'.mq| ≤ |s.mq| ∧
    (inRange s.mq → inRange (s.mem.read t.toNat) → inRange s'.mq ∧ inRange s'.ac)

/-- 44_io.md R140: GET completes when the environment has supplied a value: it takes the oldest one, stores it
clamped at the address of its operand, leaves every other memory word and all else as it was. -/
def Obligations.GetStoresTheClampedInput : Prop :=
  ∀ (t : Int) (a : Nat) (v : Int) (rest : List Int) (s : State), cellOf t = some a → s.input = v :: rest →
    encode (.get t) = 30000 + t ∧
    ∃ s', exec (.get t) s = .next s' ∧ s'.mem.read a = max (-99999) (min 99999 v) ∧
      (∀ b, b ≠ a → s'.mem.read b = s.mem.read b) ∧
      s' = { s with mem := s'.mem, input := rest, log := s.log ++ [.input v] }

/-- 44_io.md R142: a GET with no value supplied blocks: the whole state stays as it is and CPUSTATE stays runnable;
once the environment supplies a value the Step completes. That waiting is a next state equal to the state is the
model's choice (log 4). -/
def Obligations.GetWaitsForInput : Prop :=
  ∀ (t : Int) (s : State), s.cpu = .runnable → s.decodeAt s.pc = (.known (.get t), .runnable) → s.input = [] →
    step s = .next s ∧
    ∀ v : Int, ∃ s₁ s₂, handle (.supply v) s = .next (s₁, .done) ∧ step s₁ = .next s₂ ∧
      s₂.pc = s.pc + 1 ∧ s₂.mem.read t.toNat = clamp v ∧ s₂.input = []

/-- PUT delivers MEM[t] as it stands, exactly once, and changes nothing else, for every target in [0, 50) (44_io.md
R141). That it always completes is the spec's decision D8 (R142: the model lets `Out` always complete), and the list
that records the delivery is the model's: log 5, DESIGN CHOICE. -/
def Obligations.PutDeliversTheMemoryWord : Prop :=
  ∀ (t : Int) (s : State), 0 ≤ t → t < 50 →
    encode (.put t) = 31000 + t ∧
    exec (.put t) s = .next { s with log := s.log ++ [.output (s.mem.read t.toNat)] }

/-- The model's own fault (log 12): an ill-formed data instruction given to `exec`, its target naming no memory
word (20_memory.md R45, R46), stops by name. No Step does (`EveryRunnableStepAnswersNext`). -/
def Obligations.OperandOutsideMemoryFaults : Prop :=
  ∀ (t : Int) (s : State), (t < 0 ∨ 50 ≤ t) →
    exec (.lac t) s = .fault (.addressOutsideMemory t) ∧ exec (.pac t) s = .fault (.addressOutsideMemory t) ∧
    exec (.lmq t) s = .fault (.addressOutsideMemory t) ∧ exec (.pmq t) s = .fault (.addressOutsideMemory t) ∧
    exec (.add t) s = .fault (.addressOutsideMemory t) ∧ exec (.sub t) s = .fault (.addressOutsideMemory t) ∧
    exec (.mul t) s = .fault (.addressOutsideMemory t) ∧ exec (.div t) s = .fault (.addressOutsideMemory t) ∧
    (s.input ≠ [] → exec (.get t) s = .fault (.addressOutsideMemory t)) ∧
    exec (.put t) s = .fault (.addressOutsideMemory t)

/-! ### The loader, observation and the run loop -/

/-- 45_program_loader.md R159: when every item is a matching line with an address below 50, the load returns ok,
each word is the clamped value of the last line that names it or 0, the registers are zero and the machine is
runnable. -/
def Obligations.LoadOfGoodLinesSucceeds : Prop :=
  ∀ (pairs : List (Nat × Int)) (s : State), (∀ p ∈ pairs, p.1 < 50) →
    ∃ s', loadParsed (pairs.map fun p => .assign p.1 (some p.2)) s = (.ok, s') ∧
      (∀ a, s'.mem.read a = lastAssigned pairs a) ∧
      s'.pc = 0 ∧ s'.ac = 0 ∧ s'.mq = 0 ∧ s'.cpu = .runnable ∧
      s'.config = s.config ∧ s'.input = s.input ∧ s'.log = s.log

/-- 45_program_loader.md R157, R158: the first failing item decides the result; memory holds what the lines before
it assigned and nothing of what follows; CPUSTATE is halted. That the registers are zero is decision D10 (log 14). -/
def Obligations.LoadStopsAtTheFirstFailure : Prop :=
  ∀ (pairs : List (Nat × Int)) (bad : LoadItem) (rest : List LoadItem) (s : State), (∀ p ∈ pairs, p.1 < 50) →
    (∀ r, (bad = .readFailure ∧ r = .badFile) ∨ (bad = .noMatch ∧ r = .badLine) ∨
        (∃ a v, bad = .assign a v ∧ 50 ≤ a ∧ r = .badAddress) →
      ∃ s', loadParsed (pairs.map (fun p => .assign p.1 (some p.2)) ++ bad :: rest) s = (r, s') ∧
        (∀ a, s'.mem.read a = lastAssigned pairs a) ∧
        s'.pc = 0 ∧ s'.ac = 0 ∧ s'.mq = 0 ∧ s'.cpu = .halted)

/-- A load, of any text, leaves CPUSTATE runnable exactly when it returns ok and halted otherwise, never an error value
(45_program_loader.md R150, R163). That it never returns bad-value, whatever the numeral's length, is the spec's
decision D11 (R154) and the model's log 15, DESIGN CHOICE: a real loader may differ on very long numerals. -/
def Obligations.LoadIsRunnableExactlyOnSuccess : Prop :=
  ∀ (items : List InputItem) (s : State),
    ((load items s).2.cpu = if (load items s).1 = .ok then .runnable else .halted) ∧
    (load items s).1 ≠ .badValue

/-- 70_reset_and_hazards.md R212: after a load the machine depends on the program text alone, not on anything before
it: two loads of one text from any two states end alike. -/
def Obligations.LoadDependsOnTheTextAlone : Prop :=
  ∀ (items : List InputItem) (s t : State),
    (load items s).1 = (load items t).1 ∧ sameMachine (load items s).2 (load items t).2

/-- The line parser accepts exactly the lines of the grammar, with the numbers their tokens name; every other line
is a bad line (45_program_loader.md R152 to R155; the edges of the grammar are decision D9, log 13). The words
`decimal`, `isDigit` and `isBlank` stand on both sides; what they mean is shown by the tests alone. -/
def Obligations.ParserAcceptsExactlyTheGrammar : Prop :=
  (∀ (line : List Char) (a : Nat) (v : Int), parseLine line = .assign a (some v) ↔ LineFits line a v) ∧
  (∀ line : List Char, parseLine line = .noMatch ↔ ¬ ∃ a v, LineFits line a v)

/-- 10_state.md R28: between operations the environment can read all of the state, and reading changes nothing. -/
def Obligations.ObservationReadsTheWholeState : Prop :=
  ∀ s : State, ∃ o, handle .observe s = .next (s, .observed o) ∧ o.mem.length = 50 ∧
    (∀ a, a < 50 → o.mem[a]? = some (s.mem.read a)) ∧ o.pc = s.pc ∧ o.ac = s.ac ∧ o.mq = s.mq ∧ o.cpu = s.cpu

/-- 40_cycle_and_halt.md R89, R90: the run loop calls Step while CPUSTATE is runnable and ends at the first state in
which it is not; that state is final. It never faults and is never refused. The fuel is the model's (log 22). -/
def Obligations.RunLoopEndsAtTheFirstTerminalState : Prop :=
  (∀ (n : Nat) (s : State), ∃ s', runLoop n s = .next s') ∧
  (∀ (n : Nat) (s : State), s.cpu ≠ .runnable → runLoop n s = .next s) ∧
  (∀ (n : Nat) (s s' : State), s.cpu = .runnable → step s = .next s' → runLoop (n + 1) s = runLoop n s') ∧
  (∀ (n m : Nat) (s s' : State), runLoop n s = .next s' → s'.cpu ≠ .runnable → runLoop (n + m) s = .next s')

/-! ### Every event -/

/-- Every event of 10_state.md R24 keeps the invariant, from every state that meets it, reachable or not: words, AC and
MQ in range (R23), PC in [0, 50] (R15), delivered values in range (R26). The canonical memory is the model's form
(log 1), the warm reset in every state decision D14 (log 16), the waiting inputs log 3, what a cold reset keeps of
them log 17, and the zero registers of a failed load D10 (log 14). -/
def Obligations.EveryEventKeepsInvariant : Prop :=
  ∀ (e : Event) (s s' : State) (r : Response), s.Inv → handle e s = .next (s', r) → s'.Inv
end

