-- ==== Sys2Proof/Laws/Decode.lean ====
section
/-! SUPPORT. The split of a word and the opcode table: what later proofs cite instead of unfolding the
decoder. -/

namespace Sys2Proof

/-- For a word `w ≥ 0` both values of NEGWORD give the ordinary quotient and remainder (R61). -/
theorem splitWord_nonneg (nw : NegWord) {w : Int} (h : 0 ≤ w) : splitWord nw w = (w / opDiv, w % opDiv) := by
  cases nw <;> simp [splitWord, Int.tdiv_eq_ediv_of_nonneg h, Int.tmod_eq_emod_of_nonneg h,
    Int.fdiv_eq_ediv_of_nonneg w (show (0 : Int) ≤ opDiv by decide),
    Int.fmod_eq_emod_of_nonneg w (show (0 : Int) ≤ opDiv by decide)]

/-- A word put together from an opcode and a target below 1000 splits into them (R60, R61). -/
theorem splitWord_compose (nw : NegWord) {o t : Int} (ho : 0 ≤ o) (h0 : 0 ≤ t) (h1 : t < opDiv) :
    splitWord nw (o * opDiv + t) = (o, t) := by
  simp only [opDiv] at h1
  rw [splitWord_nonneg nw (by simp only [opDiv]; omega)]
  simp only [Prod.mk.injEq, opDiv]
  omega

/-- An opcode the table has is one of the 17 of R62, and the row is its row. -/
theorem lookupOpcode_some {o : Int} {row : OpcodeRow} (h : lookupOpcode o = some row) :
    row ∈ opcodeTable ∧ row.opcode = o :=
  ⟨List.mem_of_find?_eq_some h, by simpa using List.find?_some h⟩

theorem lookupOpcode_none {o : Int} (h : lookupOpcode o = none) : ∀ row ∈ opcodeTable, row.opcode ≠ o := by
  simpa [lookupOpcode] using h

/-- The row of an opcode builds instructions of that opcode, with the target it is given. -/
theorem opcodeTable_build {row : OpcodeRow} (h : row ∈ opcodeTable) (t : Int) :
    (row.build t).opcode = row.opcode ∧ (row.build t).target = t ∧ 0 ≤ row.opcode ∧ row.opcode ≤ 31 := by
  simp only [opcodeTable, List.cons_append, List.nil_append, List.mem_cons, List.not_mem_nil, or_false] at h
  rcases h with rfl | rfl | rfl | rfl | rfl | rfl | rfl | rfl | rfl | rfl | rfl | rfl | rfl | rfl | rfl | rfl | rfl <;>
    simp [Instr.opcode, Instr.target]

/-- All that decoding a word can give, in the order of the decoder's tests (R69). -/
theorem decodeWord_cases (nw : NegWord) (w : Int) :
    (lookupOpcode (splitWord nw w).1 = none ∧
      decodeWord nw w = (.unknown (splitWord nw w).2, .invalidInstruction)) ∨
    (∃ row, lookupOpcode (splitWord nw w).1 = some row ∧
      ((splitWord nw w).2 < 0 ∨ memSize ≤ (splitWord nw w).2) ∧
      decodeWord nw w = (.known (row.build (splitWord nw w).2), .invalidAddress)) ∨
    (∃ row, lookupOpcode (splitWord nw w).1 = some row ∧
      0 ≤ (splitWord nw w).2 ∧ (splitWord nw w).2 < memSize ∧
      decodeWord nw w = (.known (row.build (splitWord nw w).2), .runnable)) := by
  cases h : lookupOpcode (splitWord nw w).1 with
  | none => exact .inl ⟨rfl, by simp only [decodeWord, h]⟩
  | some row =>
    by_cases ht : (splitWord nw w).2 < 0 ∨ memSize ≤ (splitWord nw w).2
    · exact .inr (.inl ⟨row, rfl, ht, by simp only [decodeWord, h, if_pos ht]⟩)
    · refine .inr (.inr ⟨row, rfl, ?_, ?_, by simp only [decodeWord, h, if_neg ht]⟩) <;>
        rw [not_or] at ht <;> omega

/-- No two rows of the table share an opcode. -/
theorem opcodeTable_distinct : opcodeTable.Pairwise (fun a b => a.opcode ≠ b.opcode) := by
  simp [opcodeTable]

theorem opcodeTable_length : opcodeTable.length = 17 := rfl

end Sys2Proof
end

