-- ==== Sys2Proof/Laws/Memory.lean ====
section
/-! SUPPORT. Memory: a read after a write, the canonical form kept by every memory operation, and when an
address names a word. -/

namespace Sys2Proof.Machine

/-! ### Which address names a word -/

theorem cellOf_eq_some {a : Int} {k : Nat} : cellOf a = some k ↔ 0 ≤ a ∧ a < memSize ∧ (k : Int) = a := by
  unfold cellOf
  split <;> simp only [Option.some.injEq, reduceCtorEq, false_iff] <;> omega

theorem cellOf_eq_none {a : Int} : cellOf a = none ↔ a < 0 ∨ memSize ≤ a := by
  unfold cellOf
  split <;> simp only [reduceCtorEq, false_iff, true_iff] <;> omega

theorem cellOf_lt {a : Int} {k : Nat} (h : cellOf a = some k) : (k : Int) < memSize := by
  have := cellOf_eq_some.1 h; omega

theorem cellOf_of_range {a : Int} (h0 : 0 ≤ a) (h1 : a < memSize) : cellOf a = some a.toNat :=
  cellOf_eq_some.2 ⟨h0, h1, by omega⟩

theorem cellOf_natCast {k : Nat} (h : (k : Int) < memSize) : cellOf (k : Int) = some k :=
  cellOf_eq_some.2 ⟨by omega, h, rfl⟩

/-! ### Reading after writing -/

@[simp] theorem read_nil (a : Nat) : Memory.read [] a = 0 := rfl

theorem read_insert_self (a : Nat) (v : Int) (m : Memory) (h : ∀ c ∈ m, c.1 ≠ a) :
    (Memory.insert a v m).read a = v := by
  induction m with
  | nil => simp [Memory.insert, Memory.read]
  | cons c rest ih =>
    have hc := h c (by simp)
    unfold Memory.insert
    split
    · simp [Memory.read]
    · simpa [Memory.read, hc] using ih fun d hd => h d (by simp [hd])

theorem read_insert_ne {a b : Nat} (hab : b ≠ a) (v : Int) (m : Memory) :
    (Memory.insert a v m).read b = m.read b := by
  induction m with
  | nil => simp [Memory.insert, Memory.read, hab.symm]
  | cons c rest ih =>
    unfold Memory.insert
    split
    · simp [Memory.read, hab.symm]
    · simp [Memory.read, ih]

theorem read_filter_self (a : Nat) (m : Memory) : Memory.read (m.filter fun c => c.1 ≠ a) a = 0 := by
  induction m with
  | nil => rfl
  | cons c rest ih =>
    by_cases hc : c.1 = a
    · simpa [List.filter_cons, hc] using ih
    · simpa [List.filter_cons, hc, Memory.read] using ih

theorem read_filter_ne {a b : Nat} (hab : b ≠ a) (m : Memory) :
    Memory.read (m.filter fun c => c.1 ≠ a) b = m.read b := by
  induction m with
  | nil => rfl
  | cons c rest ih =>
    by_cases hc : c.1 = a
    · have hcb : c.1 ≠ b := by omega
      simpa [List.filter_cons, hc, Memory.read, hab.symm] using ih
    · rw [List.filter_cons_of_pos (by simpa using hc)]
      simp only [Memory.read, ih]

/-- A write gives its value at its address and leaves every other address alone (20_memory.md R45). -/
@[simp] theorem read_write (m : Memory) (a b : Nat) (v : Int) :
    (m.write a v).read b = if b = a then v else m.read b := by
  unfold Memory.write
  by_cases hv : v = 0
  · by_cases hb : b = a
    · simpa [hv, hb] using read_filter_self a m
    · simpa [hv, hb] using read_filter_ne hb m
  · by_cases hb : b = a
    · subst hb
      simpa [hv] using read_insert_self b v (m.filter fun c => c.1 ≠ b) (by simp)
    · simpa [hv, hb] using (read_insert_ne hb v _).trans (read_filter_ne hb m)

/-! ### The canonical form -/

theorem wf_nil : Memory.wf [] := ⟨List.Pairwise.nil, by simp⟩

theorem wf_filter {m : Memory} (h : m.wf) (p : Cell → Bool) : Memory.wf (m.filter p) :=
  ⟨h.1.filter p, fun c hc => h.2 c (List.mem_filter.1 hc).1⟩

theorem mem_insert {a : Nat} {v : Int} {m : Memory} {c : Cell} (h : c ∈ Memory.insert a v m) :
    c = (a, v) ∨ c ∈ m := by
  induction m with
  | nil => simpa [Memory.insert] using h
  | cons d rest ih =>
    unfold Memory.insert at h
    split at h
    · simpa using h
    · rcases List.mem_cons.1 h with rfl | h
      · simp
      · rcases ih h with h | h <;> simp [h]

theorem insert_pairwise {a : Nat} {v : Int} {m : Memory} (hm : m.Pairwise fun c d => c.1 < d.1)
    (ha : ∀ c ∈ m, c.1 ≠ a) : (Memory.insert a v m).Pairwise fun c d => c.1 < d.1 := by
  induction m with
  | nil => simp [Memory.insert]
  | cons c rest ih =>
    rw [List.pairwise_cons] at hm
    have hc := ha c (by simp)
    unfold Memory.insert
    split
    · rename_i hlt
      refine List.pairwise_cons.2 ⟨fun d hd => ?_, List.pairwise_cons.2 hm⟩
      rcases List.mem_cons.1 hd with rfl | hd
      · exact hlt
      · have := hm.1 d hd; simp only; omega
    · rename_i hge
      refine List.pairwise_cons.2 ⟨fun d hd => ?_, ih hm.2 fun d hd => ha d (by simp [hd])⟩
      rcases mem_insert hd with rfl | hd
      · simp only; omega
      · exact hm.1 d hd

/-- A write to an address that names a word keeps the canonical form. -/
theorem wf_write {m : Memory} (h : m.wf) {a : Nat} (ha : (a : Int) < memSize) (v : Int) :
    (m.write a v).wf := by
  have hf := wf_filter h fun c => c.1 ≠ a
  unfold Memory.write
  by_cases hv : v = 0
  · simpa [hv] using hf
  · simp only [hv, if_false]
    refine ⟨insert_pairwise hf.1 (by simp), fun c hc => ?_⟩
    rcases mem_insert hc with rfl | hc
    · exact ⟨ha, hv⟩
    · exact hf.2 c hc

/-- MemWrite keeps the canonical form, wherever it is allowed at all. -/
theorem wf_memWrite {m n : Memory} (h : m.wf) {a : Int} {v : Int} (hw : memWrite m a v = .ok n) : n.wf := by
  unfold memWrite at hw
  split at hw
  · rename_i k hk
    cases hw
    exact wf_write h (cellOf_lt hk) v
  · cases hw

/-- Storing an operand keeps the canonical form. -/
theorem wf_writeOperand {t : Int} {v : Int} {s s' : State} (h : s.mem.wf)
    (hw : writeOperand t v s = .next s') : s'.mem.wf := by
  unfold writeOperand at hw
  split at hw
  · rename_i m hm
    cases hw
    exact wf_memWrite h hm
  · cases hw

theorem wf_reset : State.reset.mem.wf := wf_nil

theorem wf_coldReset (s : State) (tr : Bool) : (s.coldReset tr).mem.wf := wf_nil

/-! ### What the listed words satisfy, every read does -/

theorem read_inRange {m : Memory} (h : ∀ c ∈ m, inRange c.2) (a : Nat) : inRange (m.read a) := by
  induction m with
  | nil => exact ⟨by simp, by simp⟩
  | cons c rest ih =>
    unfold Memory.read
    split
    · exact h c (by simp)
    · exact ih fun d hd => h d (by simp [hd])

theorem write_inRange {m : Memory} (h : ∀ c ∈ m, inRange c.2) (a : Nat) {v : Int} (hv : inRange v) :
    ∀ c ∈ m.write a v, inRange c.2 := by
  intro c hc
  unfold Memory.write at hc
  split at hc
  · exact h c (List.mem_filter.1 hc).1
  · rcases mem_insert hc with rfl | hc
    · exact hv
    · exact h c (List.mem_filter.1 hc).1

/-! ### The primitives and the operand form -/

theorem memRead_eq {m : Memory} {a : Int} {k : Nat} (h : cellOf a = some k) : memRead m a = .ok (m.read k) := by
  simp [memRead, h]

theorem memWrite_eq {m : Memory} {a : Int} {k : Nat} (h : cellOf a = some k) (v : Int) :
    memWrite m a v = .ok (m.write k v) := by
  simp [memWrite, h]

/-- All a read operand can do: go on with MEM[t], or fault because `t` names no word. -/
theorem readOperand_cases (t : Int) (s : State) (k : Int → State) :
    (∃ a, cellOf t = some a ∧ readOperand t s k = .next (k (s.mem.read a))) ∨
    (cellOf t = none ∧ readOperand t s k = .fault (.addressOutsideMemory t)) := by
  cases h : cellOf t with
  | none => exact .inr ⟨rfl, by simp [readOperand, memRead, h]⟩
  | some a => exact .inl ⟨a, rfl, by simp [readOperand, memRead, h]⟩

/-- All a stored operand can do: change MEM[t] alone, or fault because `t` names no word. -/
theorem writeOperand_cases (t : Int) (v : Int) (s : State) :
    (∃ a, cellOf t = some a ∧ writeOperand t v s = .next (s.setMem (s.mem.write a v))) ∨
    (cellOf t = none ∧ writeOperand t v s = .fault (.addressOutsideMemory t)) := by
  cases h : cellOf t with
  | none => exact .inr ⟨rfl, by simp [writeOperand, memWrite, h]⟩
  | some a => exact .inl ⟨a, rfl, by simp [writeOperand, memWrite, h]⟩

theorem readOperand_some {t : Int} {a : Nat} (h : cellOf t = some a) (s : State) (k : Int → State) :
    readOperand t s k = .next (k (s.mem.read a)) := by
  simp [readOperand, memRead, h]

theorem writeOperand_some {t : Int} {a : Nat} (h : cellOf t = some a) (v : Int) (s : State) :
    writeOperand t v s = .next (s.setMem (s.mem.write a v)) := by
  simp [writeOperand, memWrite, h]

/-! ### Bounded arithmetic -/

theorem clamp_inRange (x : Int) : inRange (clamp x) := by
  simp only [clamp, inRange, vMax, vMin]; split_ifs <;> omega

theorem clamp_of_inRange {x : Int} (h : inRange x) : clamp x = x := by
  simp only [clamp, inRange, vMax, vMin] at *; split_ifs <;> omega

end Sys2Proof.Machine
end

