-- ==== Sys2Proof/Laws/PerInstr.lean ====
section
/-! SUPPORT. One lemma per instruction: the table has its opcode, and that row rebuilds it from its target
and carries its mnemonic (30_encoding.md R62). -/

namespace Sys2Proof.Laws.OpcodeRowOf

/-- The table's row of the instruction's opcode makes exactly this instruction of its target. -/
def Statement (i : Instr) : Prop :=
  ∃ row, lookupOpcode i.opcode = some row ∧ row.build i.target = i ∧ row.mnemonic = i.mnemonic

theorem hlt (t : Int) : Statement (.hlt t) := ⟨⟨0, "HLT", .hlt⟩, rfl, rfl, rfl⟩
theorem jeq (t : Int) : Statement (.jeq t) := ⟨⟨1, "JEQ", .jeq⟩, rfl, rfl, rfl⟩
theorem jgt (t : Int) : Statement (.jgt t) := ⟨⟨2, "JGT", .jgt⟩, rfl, rfl, rfl⟩
theorem jlt (t : Int) : Statement (.jlt t) := ⟨⟨3, "JLT", .jlt⟩, rfl, rfl, rfl⟩
theorem jmp (t : Int) : Statement (.jmp t) := ⟨⟨5, "JMP", .jmp⟩, rfl, rfl, rfl⟩
theorem jle (t : Int) : Statement (.jle t) := ⟨⟨6, "JLE", .jle⟩, rfl, rfl, rfl⟩
theorem jne (t : Int) : Statement (.jne t) := ⟨⟨7, "JNE", .jne⟩, rfl, rfl, rfl⟩
theorem lac (t : Int) : Statement (.lac t) := ⟨⟨10, "LAC", .lac⟩, rfl, rfl, rfl⟩
theorem pac (t : Int) : Statement (.pac t) := ⟨⟨11, "PAC", .pac⟩, rfl, rfl, rfl⟩
theorem lmq (t : Int) : Statement (.lmq t) := ⟨⟨12, "LMQ", .lmq⟩, rfl, rfl, rfl⟩
theorem pmq (t : Int) : Statement (.pmq t) := ⟨⟨13, "PMQ", .pmq⟩, rfl, rfl, rfl⟩
theorem add (t : Int) : Statement (.add t) := ⟨⟨20, "ADD", .add⟩, rfl, rfl, rfl⟩
theorem sub (t : Int) : Statement (.sub t) := ⟨⟨21, "SUB", .sub⟩, rfl, rfl, rfl⟩
theorem mul (t : Int) : Statement (.mul t) := ⟨⟨22, "MUL", .mul⟩, rfl, rfl, rfl⟩
theorem div (t : Int) : Statement (.div t) := ⟨⟨23, "DIV", .div⟩, rfl, rfl, rfl⟩
theorem get (t : Int) : Statement (.get t) := ⟨⟨30, "GET", .get⟩, rfl, rfl, rfl⟩
theorem put (t : Int) : Statement (.put t) := ⟨⟨31, "PUT", .put⟩, rfl, rfl, rfl⟩

end Sys2Proof.Laws.OpcodeRowOf
end

