-- ==== Sys2Proof/Laws/State.lean ====
section
/-! SUPPORT. What each named update of the state does to each field, so that no later proof unfolds an
update. -/

namespace Sys2Proof.Machine

variable (s : State)

/-! ### setMem -/

@[simp] theorem setMem_mem (m : Memory) : (s.setMem m).mem = m := rfl
@[simp] theorem setMem_pc (m : Memory) : (s.setMem m).pc = s.pc := rfl
@[simp] theorem setMem_ac (m : Memory) : (s.setMem m).ac = s.ac := rfl
@[simp] theorem setMem_mq (m : Memory) : (s.setMem m).mq = s.mq := rfl
@[simp] theorem setMem_cpu (m : Memory) : (s.setMem m).cpu = s.cpu := rfl
@[simp] theorem setMem_config (m : Memory) : (s.setMem m).config = s.config := rfl
@[simp] theorem setMem_input (m : Memory) : (s.setMem m).input = s.input := rfl
@[simp] theorem setMem_log (m : Memory) : (s.setMem m).log = s.log := rfl

/-! ### setPc -/

@[simp] theorem setPc_mem (a : Int) : (s.setPc a).mem = s.mem := rfl
@[simp] theorem setPc_pc (a : Int) : (s.setPc a).pc = a := rfl
@[simp] theorem setPc_ac (a : Int) : (s.setPc a).ac = s.ac := rfl
@[simp] theorem setPc_mq (a : Int) : (s.setPc a).mq = s.mq := rfl
@[simp] theorem setPc_cpu (a : Int) : (s.setPc a).cpu = s.cpu := rfl
@[simp] theorem setPc_config (a : Int) : (s.setPc a).config = s.config := rfl
@[simp] theorem setPc_input (a : Int) : (s.setPc a).input = s.input := rfl
@[simp] theorem setPc_log (a : Int) : (s.setPc a).log = s.log := rfl

/-! ### setAc -/

@[simp] theorem setAc_mem (v : Int) : (s.setAc v).mem = s.mem := rfl
@[simp] theorem setAc_pc (v : Int) : (s.setAc v).pc = s.pc := rfl
@[simp] theorem setAc_ac (v : Int) : (s.setAc v).ac = v := rfl
@[simp] theorem setAc_mq (v : Int) : (s.setAc v).mq = s.mq := rfl
@[simp] theorem setAc_cpu (v : Int) : (s.setAc v).cpu = s.cpu := rfl
@[simp] theorem setAc_config (v : Int) : (s.setAc v).config = s.config := rfl
@[simp] theorem setAc_input (v : Int) : (s.setAc v).input = s.input := rfl
@[simp] theorem setAc_log (v : Int) : (s.setAc v).log = s.log := rfl

/-! ### setMq -/

@[simp] theorem setMq_mem (v : Int) : (s.setMq v).mem = s.mem := rfl
@[simp] theorem setMq_pc (v : Int) : (s.setMq v).pc = s.pc := rfl
@[simp] theorem setMq_ac (v : Int) : (s.setMq v).ac = s.ac := rfl
@[simp] theorem setMq_mq (v : Int) : (s.setMq v).mq = v := rfl
@[simp] theorem setMq_cpu (v : Int) : (s.setMq v).cpu = s.cpu := rfl
@[simp] theorem setMq_config (v : Int) : (s.setMq v).config = s.config := rfl
@[simp] theorem setMq_input (v : Int) : (s.setMq v).input = s.input := rfl
@[simp] theorem setMq_log (v : Int) : (s.setMq v).log = s.log := rfl

/-! ### setInput -/

@[simp] theorem setInput_mem (vs : List Int) : (s.setInput vs).mem = s.mem := rfl
@[simp] theorem setInput_pc (vs : List Int) : (s.setInput vs).pc = s.pc := rfl
@[simp] theorem setInput_ac (vs : List Int) : (s.setInput vs).ac = s.ac := rfl
@[simp] theorem setInput_mq (vs : List Int) : (s.setInput vs).mq = s.mq := rfl
@[simp] theorem setInput_cpu (vs : List Int) : (s.setInput vs).cpu = s.cpu := rfl
@[simp] theorem setInput_config (vs : List Int) : (s.setInput vs).config = s.config := rfl
@[simp] theorem setInput_input (vs : List Int) : (s.setInput vs).input = vs := rfl
@[simp] theorem setInput_log (vs : List Int) : (s.setInput vs).log = s.log := rfl

/-! ### emit -/

@[simp] theorem emit_mem (e : PortEvent) : (s.emit e).mem = s.mem := rfl
@[simp] theorem emit_pc (e : PortEvent) : (s.emit e).pc = s.pc := rfl
@[simp] theorem emit_ac (e : PortEvent) : (s.emit e).ac = s.ac := rfl
@[simp] theorem emit_mq (e : PortEvent) : (s.emit e).mq = s.mq := rfl
@[simp] theorem emit_cpu (e : PortEvent) : (s.emit e).cpu = s.cpu := rfl
@[simp] theorem emit_config (e : PortEvent) : (s.emit e).config = s.config := rfl
@[simp] theorem emit_input (e : PortEvent) : (s.emit e).input = s.input := rfl
@[simp] theorem emit_log (e : PortEvent) : (s.emit e).log = s.log ++ [e] := rfl

/-! ### stop -/

@[simp] theorem stop_mem (c : CpuState) : (s.stop c).mem = s.mem := rfl
@[simp] theorem stop_pc (c : CpuState) : (s.stop c).pc = s.pc := rfl
@[simp] theorem stop_ac (c : CpuState) : (s.stop c).ac = s.ac := rfl
@[simp] theorem stop_mq (c : CpuState) : (s.stop c).mq = s.mq := rfl
@[simp] theorem stop_cpu (c : CpuState) : (s.stop c).cpu = c := rfl
@[simp] theorem stop_config (c : CpuState) : (s.stop c).config = s.config := rfl
@[simp] theorem stop_input (c : CpuState) : (s.stop c).input = s.input := rfl
@[simp] theorem stop_log (c : CpuState) : (s.stop c).log = s.log := rfl

/-! ### advancePc -/

@[simp] theorem advancePc_mem : (s.advancePc).mem = s.mem := rfl
@[simp] theorem advancePc_pc : (s.advancePc).pc = s.pc + 1 := rfl
@[simp] theorem advancePc_ac : (s.advancePc).ac = s.ac := rfl
@[simp] theorem advancePc_mq : (s.advancePc).mq = s.mq := rfl
@[simp] theorem advancePc_cpu : (s.advancePc).cpu = s.cpu := rfl
@[simp] theorem advancePc_config : (s.advancePc).config = s.config := rfl
@[simp] theorem advancePc_input : (s.advancePc).input = s.input := rfl
@[simp] theorem advancePc_log : (s.advancePc).log = s.log := rfl

/-! ### warmReset -/

@[simp] theorem warmReset_mem : (s.warmReset).mem = s.mem := rfl
@[simp] theorem warmReset_pc : (s.warmReset).pc = 0 := rfl
@[simp] theorem warmReset_ac : (s.warmReset).ac = 0 := rfl
@[simp] theorem warmReset_mq : (s.warmReset).mq = 0 := rfl
@[simp] theorem warmReset_cpu : (s.warmReset).cpu = .runnable := rfl
@[simp] theorem warmReset_config : (s.warmReset).config = s.config := rfl
@[simp] theorem warmReset_input : (s.warmReset).input = s.input := rfl
@[simp] theorem warmReset_log : (s.warmReset).log = s.log := rfl

/-! ### coldReset -/

@[simp] theorem coldReset_mem (tr : Bool) : (s.coldReset tr).mem = [] := rfl
@[simp] theorem coldReset_pc (tr : Bool) : (s.coldReset tr).pc = 0 := rfl
@[simp] theorem coldReset_ac (tr : Bool) : (s.coldReset tr).ac = 0 := rfl
@[simp] theorem coldReset_mq (tr : Bool) : (s.coldReset tr).mq = 0 := rfl
@[simp] theorem coldReset_cpu (tr : Bool) : (s.coldReset tr).cpu = .runnable := rfl
@[simp] theorem coldReset_config (tr : Bool) : (s.coldReset tr).config = { s.config with trace := tr } := rfl
@[simp] theorem coldReset_input (tr : Bool) : (s.coldReset tr).input = s.input := rfl
@[simp] theorem coldReset_log (tr : Bool) : (s.coldReset tr).log = s.log := rfl

/-! ### beginLoad -/

@[simp] theorem beginLoad_mem : (s.beginLoad).mem = [] := rfl
@[simp] theorem beginLoad_pc : (s.beginLoad).pc = 0 := rfl
@[simp] theorem beginLoad_ac : (s.beginLoad).ac = 0 := rfl
@[simp] theorem beginLoad_mq : (s.beginLoad).mq = 0 := rfl
@[simp] theorem beginLoad_cpu : (s.beginLoad).cpu = .halted := rfl
@[simp] theorem beginLoad_config : (s.beginLoad).config = s.config := rfl
@[simp] theorem beginLoad_input : (s.beginLoad).input = s.input := rfl
@[simp] theorem beginLoad_log : (s.beginLoad).log = s.log := rfl

/-! ### report and enter: steps 2 and 2a of a Step -/

@[simp] theorem report_mem (i : Instr) : (s.report i).mem = s.mem := by
  unfold State.report; split <;> rfl
@[simp] theorem report_pc (i : Instr) : (s.report i).pc = s.pc := by
  unfold State.report; split <;> rfl
@[simp] theorem report_ac (i : Instr) : (s.report i).ac = s.ac := by
  unfold State.report; split <;> rfl
@[simp] theorem report_mq (i : Instr) : (s.report i).mq = s.mq := by
  unfold State.report; split <;> rfl
@[simp] theorem report_cpu (i : Instr) : (s.report i).cpu = s.cpu := by
  unfold State.report; split <;> rfl
@[simp] theorem report_config (i : Instr) : (s.report i).config = s.config := by
  unfold State.report; split <;> rfl
@[simp] theorem report_input (i : Instr) : (s.report i).input = s.input := by
  unfold State.report; split <;> rfl
@[simp] theorem report_log (i : Instr) :
    (s.report i).log = if s.config.trace then s.log ++ [.trace i] else s.log := by
  unfold State.report; split <;> rfl

@[simp] theorem enter_mem (i : Instr) : (s.enter i).mem = s.mem := by simp [State.enter]
@[simp] theorem enter_pc (i : Instr) : (s.enter i).pc = s.pc + 1 := by simp [State.enter]
@[simp] theorem enter_ac (i : Instr) : (s.enter i).ac = s.ac := by simp [State.enter]
@[simp] theorem enter_mq (i : Instr) : (s.enter i).mq = s.mq := by simp [State.enter]
@[simp] theorem enter_cpu (i : Instr) : (s.enter i).cpu = s.cpu := by simp [State.enter]
@[simp] theorem enter_config (i : Instr) : (s.enter i).config = s.config := by simp [State.enter]
@[simp] theorem enter_input (i : Instr) : (s.enter i).input = s.input := by simp [State.enter]
@[simp] theorem enter_log (i : Instr) :
    (s.enter i).log = if s.config.trace then s.log ++ [.trace i] else s.log :=
  report_log s.advancePc i

/-- Everything `enter` does, as one update. -/
theorem enter_eq (i : Instr) : s.enter i =
    { s with pc := s.pc + 1, log := if s.config.trace then s.log ++ [.trace i] else s.log } := by
  unfold State.enter State.report State.advancePc State.emit; split <;> rfl

/-! ### jumpIf: the jump rule -/

@[simp] theorem jumpIf_mem (c : Bool) (t : Int) : (jumpIf c t s).mem = s.mem := by cases c <;> rfl
@[simp] theorem jumpIf_pc (c : Bool) (t : Int) : (jumpIf c t s).pc = if c then t else s.pc := by
  cases c <;> rfl
@[simp] theorem jumpIf_ac (c : Bool) (t : Int) : (jumpIf c t s).ac = s.ac := by cases c <;> rfl
@[simp] theorem jumpIf_mq (c : Bool) (t : Int) : (jumpIf c t s).mq = s.mq := by cases c <;> rfl
@[simp] theorem jumpIf_cpu (c : Bool) (t : Int) : (jumpIf c t s).cpu = s.cpu := by cases c <;> rfl
@[simp] theorem jumpIf_config (c : Bool) (t : Int) : (jumpIf c t s).config = s.config := by cases c <;> rfl
@[simp] theorem jumpIf_input (c : Bool) (t : Int) : (jumpIf c t s).input = s.input := by cases c <;> rfl
@[simp] theorem jumpIf_log (c : Bool) (t : Int) : (jumpIf c t s).log = s.log := by cases c <;> rfl

/-! ### divide: the two results of a division -/

@[simp] theorem divide_mem (m : Int) : (divide m s).mem = s.mem := rfl
@[simp] theorem divide_pc (m : Int) : (divide m s).pc = s.pc := rfl
@[simp] theorem divide_ac (m : Int) : (divide m s).ac = s.mq.tmod m := rfl
@[simp] theorem divide_mq (m : Int) : (divide m s).mq = s.mq.tdiv m := rfl
@[simp] theorem divide_cpu (m : Int) : (divide m s).cpu = s.cpu := rfl
@[simp] theorem divide_config (m : Int) : (divide m s).config = s.config := rfl
@[simp] theorem divide_input (m : Int) : (divide m s).input = s.input := rfl
@[simp] theorem divide_log (m : Int) : (divide m s).log = s.log := rfl

end Sys2Proof.Machine
end

