-- ==== Sys2Proof/Laws/Step.lean ====
section
/-! SUPPORT. Inversion: all that a step, an instruction and an event can do when they answer a next state.
Later proofs cite these and do not unfold `step`. -/

namespace Sys2Proof.Machine

/-- All that decoding at an address can give. -/
theorem decodeAt_cases (s : State) (a : Int) :
    (∃ k, cellOf a = some k ∧ s.decodeAt a = decodeWord s.config.negWord (s.mem.read k)) ∨
    (cellOf a = none ∧ s.decodeAt a = (.unknown 0, .invalidInstruction)) := by
  cases h : cellOf a with
  | none => exact .inr ⟨rfl, by simp [State.decodeAt, h]⟩
  | some k => exact .inl ⟨k, rfl, by simp [State.decodeAt, h]⟩

/-- Only a GET with no value supplied waits (44_io.md R142). -/
theorem awaitsInput_eq_true {s : State} {i : Instr} :
    s.awaitsInput i = true ↔ (∃ t, i = .get t) ∧ s.input = [] := by
  cases i <;> simp [State.awaitsInput]

/-- All that a step from a state to a next state can be (R81, R82, R142): a decode failure, a GET that
waits, the operation on the entered state, or R86's fallback arm. -/
theorem step_cases {s s' : State} (h : step s = .next s') :
    s.cpu = .runnable ∧
    ((∃ d v, s.decodeAt s.pc = (d, v) ∧ v ≠ .runnable ∧ s' = s.stop v) ∨
     (∃ i, s.decodeAt s.pc = (.known i, .runnable) ∧ s.awaitsInput i = true ∧ s' = s) ∨
     (∃ i, s.decodeAt s.pc = (.known i, .runnable) ∧ s.awaitsInput i = false ∧
        exec i (s.enter i) = .next s') ∨
     (∃ a, s.decodeAt s.pc = (.unknown a, .runnable) ∧ s' = s.advancePc.stop .invalidInstruction)) := by
  unfold step at h
  split at h <;> try exact absurd h (by simp)
  refine ⟨by assumption, ?_⟩
  unfold cycle at h
  split at h
  · rename_i d hd
    unfold perform at h
    split at h
    · rename_i i
      split at h
      · rename_i hw
        exact .inr (.inl ⟨i, hd, hw, by simpa using h.symm⟩)
      · rename_i hw
        exact .inr (.inr (.inl ⟨i, hd, by simpa using hw, h⟩))
    · rename_i a
      exact .inr (.inr (.inr ⟨a, hd, by simpa using h.symm⟩))
  · rename_i d v hv hd
    exact .inl ⟨d, v, hd, fun hr => hv (by simp [hr]), by simpa using h.symm⟩

/-- What a state must satisfy for a step from it to be the operation of `i`. -/
theorem step_of_decoded {s : State} {i : Instr} (hc : s.cpu = .runnable)
    (hd : s.decodeAt s.pc = (.known i, .runnable)) (hw : s.awaitsInput i = false) :
    step s = exec i (s.enter i) := by
  simp [step, hc, cycle, hd, perform, hw]

/-- All that an event answering a next state can be. -/
theorem handle_cases {e : Event} {s s' : State} {r : Response} (h : handle e s = .next (s', r)) :
    (∃ tr, e = .coldReset tr ∧ s' = s.coldReset tr ∧ r = .done) ∨
    (e = .warmReset ∧ s' = s.warmReset ∧ r = .done) ∨
    (∃ items, e = .load items ∧ s' = (load items s).2 ∧ r = .loaded (load items s).1) ∨
    (∃ v, e = .supply v ∧ s' = s.setInput (s.input ++ [v]) ∧ r = .done) ∨
    (e = .step ∧ step s = .next s' ∧ r = .done) ∨
    (e = .observe ∧ s' = s ∧ r = .observed s.observe) ∨
    (∃ a, e = .decode a ∧ s' = s ∧ r = .decoded (s.decodeAt a).1 (s.decodeAt a).2) := by
  cases e with
  | coldReset tr => simp only [handle, Host.Outcome.next.injEq, Prod.mk.injEq] at h; simp [h.1, h.2]
  | warmReset => simp only [handle, Host.Outcome.next.injEq, Prod.mk.injEq] at h; simp [h.1, h.2]
  | load items => simp only [handle, Host.Outcome.next.injEq, Prod.mk.injEq] at h; simp [h.1, h.2]
  | supply v => simp only [handle, Host.Outcome.next.injEq, Prod.mk.injEq] at h; simp [h.1, h.2]
  | step =>
    cases hs : step s with
    | next t => simp only [handle, stepped, hs, Host.Outcome.next.injEq, Prod.mk.injEq] at h; simp [h.1, h.2]
    | fault f => simp [handle, stepped, hs] at h
    | refused f => simp [handle, stepped, hs] at h
  | observe =>
    simp only [handle, Host.Outcome.next.injEq, Prod.mk.injEq] at h
    obtain ⟨rfl, rfl⟩ := h; simp
  | decode a =>
    simp only [handle, Host.Outcome.next.injEq, Prod.mk.injEq] at h
    obtain ⟨rfl, rfl⟩ := h; simp

/-- The word placed by `withFetchWord` keeps memory canonical. -/
theorem wf_withFetchWord {s : State} (h : s.mem.wf) (nbits w : Nat) : (s.withFetchWord nbits w).mem.wf := by
  refine wf_write h ?_ _
  cases hc : cellOf s.pc with
  | none => simp
  | some k => exact cellOf_lt hc

/-! ### The load, item by item -/

/-- All that one round of the load can do. -/
theorem loadItem_cases (item : LoadItem) (s : State) :
    (item = .readFailure ∧ loadItem item s = .error .badFile) ∨
    (item = .noMatch ∧ loadItem item s = .error .badLine) ∨
    (∃ (a : Nat) (v : Option Int), item = .assign a v ∧ memSize ≤ (a : Int) ∧ loadItem item s = .error .badAddress) ∨
    (∃ (a : Nat), item = .assign a none ∧ (a : Int) < memSize ∧ loadItem item s = .error .badValue) ∨
    (∃ (a : Nat) (x : Int), item = .assign a (some x) ∧ (a : Int) < memSize ∧
      loadItem item s = .ok (s.setMem (s.mem.write a (clamp x)))) := by
  cases item with
  | readFailure => exact .inl ⟨rfl, rfl⟩
  | noMatch => exact .inr (.inl ⟨rfl, rfl⟩)
  | assign a v =>
    by_cases ha : memSize ≤ (a : Int)
    · exact .inr (.inr (.inl ⟨a, v, rfl, ha, if_pos ha⟩))
    · cases v with
      | none => exact .inr (.inr (.inr (.inl ⟨a, rfl, not_le.1 ha, if_neg ha⟩)))
      | some x => exact .inr (.inr (.inr (.inr ⟨a, x, rfl, not_le.1 ha, if_neg ha⟩)))

@[simp] theorem loadItems_nil (s : State) : loadItems [] s = (.ok, s.stop .runnable) := rfl

/-- One round of a load keeps memory canonical. -/
theorem wf_loadItem {item : LoadItem} {s s' : State} (h : s.mem.wf) (hl : loadItem item s = .ok s') :
    s'.mem.wf := by
  rcases loadItem_cases item s with ⟨_, e⟩ | ⟨_, e⟩ | ⟨_, _, _, _, e⟩ | ⟨_, _, _, e⟩ | ⟨a, x, _, ha, e⟩ <;>
    rw [e] at hl <;> cases hl
  exact wf_write h ha _

theorem loadItems_error {item : LoadItem} {s : State} {r : LoadResult} (h : loadItem item s = .error r)
    (rest : List LoadItem) : loadItems (item :: rest) s = (r, s) := by
  simp only [loadItems, h]

theorem loadItems_ok {item : LoadItem} {s s' : State} (h : loadItem item s = .ok s')
    (rest : List LoadItem) : loadItems (item :: rest) s = loadItems rest s' := by
  simp only [loadItems, h]

/-- A load keeps memory canonical, whatever its items. -/
theorem wf_loadItems {items : List LoadItem} {s : State} (h : s.mem.wf) : (loadItems items s).2.mem.wf := by
  induction items generalizing s with
  | nil => exact h
  | cons item rest ih =>
    cases hl : loadItem item s with
    | error r => rw [loadItems_error hl]; exact h
    | ok s' => rw [loadItems_ok hl]; exact ih (wf_loadItem h hl)

end Sys2Proof.Machine
end

