-- ==== Sys2Proof/Tests/Slice0.lean ====
section
/-! SUPPORT. The model's own tests: expected results are the vectors of 95_test_vectors.md (S<n>: the
source's own; 2.<n>: derived by hand there), or the rule named. Then one witness for the hypotheses of each
statement that has any. -/

open Sys2Proof Sys2Proof.Machine

namespace Sys2Proof.Tests

/-- A runnable machine with these words and registers, TRACE off, NEGWORD trunc, no input. -/
def mk (mem : Memory) (pc ac mq : Int) : State := { State.reset with mem := mem, pc := pc, ac := ac, mq := mq }

/-- The state of an outcome that has one. -/
def after : Host.Outcome State Fault Refusal → Option State
  | .next s => some s
  | .fault _ => none
  | .refused _ => none

/-- `PC, AC, MQ, CPUSTATE`, as 95_test_vectors.md writes a state, after one Step. -/
def stepped (s : State) : Option (Int × Int × Int × CpuState) :=
  (after (step s)).map fun t => (t.pc, t.ac, t.mq, t.cpu)

/-- One memory word after one Step. -/
def wordAfter (s : State) (a : Nat) : Option Int := (after (step s)).map fun t => t.mem.read a

/-- What passed at the ports in one Step. -/
def portsAfter (s : State) : Option (List PortEvent) := (after (step s)).map State.log

/-! ### WellFormed: ill-formed terms the check refuses (R64, C1) -/

theorem test_wf_refuses_below : ¬ (Instr.lac (-1)).wellFormed := by decide
theorem test_wf_refuses_50 : ¬ (Instr.jmp 50).wellFormed := by decide
theorem test_wf_refuses_hlt_50 : ¬ (Instr.hlt 50).wellFormed := by decide
theorem test_wf_accepts_49 : (Instr.put 49).wellFormed := by decide

/-! ### Decode: one written word per operation (2.2), the failures, the negative words (R65 table) -/

theorem test_decode_hlt : decodeWord .trunc 49 = (.known (.hlt 49), .runnable) := by decide
theorem test_decode_jeq : decodeWord .trunc 1008 = (.known (.jeq 8), .runnable) := by decide
theorem test_decode_jgt : decodeWord .trunc 2049 = (.known (.jgt 49), .runnable) := by decide
theorem test_decode_jlt : decodeWord .trunc 3020 = (.known (.jlt 20), .runnable) := by decide
theorem test_decode_jmp : decodeWord .trunc 5000 = (.known (.jmp 0), .runnable) := by decide
theorem test_decode_jle : decodeWord .trunc 6010 = (.known (.jle 10), .runnable) := by decide
theorem test_decode_jne : decodeWord .trunc 7000 = (.known (.jne 0), .runnable) := by decide
theorem test_decode_lac : decodeWord .trunc 10010 = (.known (.lac 10), .runnable) := by decide
theorem test_decode_pac : decodeWord .trunc 11011 = (.known (.pac 11), .runnable) := by decide
theorem test_decode_lmq : decodeWord .trunc 12010 = (.known (.lmq 10), .runnable) := by decide
theorem test_decode_pmq : decodeWord .trunc 13013 = (.known (.pmq 13), .runnable) := by decide
theorem test_decode_add : decodeWord .trunc 20011 = (.known (.add 11), .runnable) := by decide
theorem test_decode_sub : decodeWord .trunc 21012 = (.known (.sub 12), .runnable) := by decide
theorem test_decode_mul : decodeWord .trunc 22001 = (.known (.mul 1), .runnable) := by decide
theorem test_decode_div : decodeWord .trunc 23049 = (.known (.div 49), .runnable) := by decide
theorem test_decode_get : decodeWord .trunc 30002 = (.known (.get 2), .runnable) := by decide
theorem test_decode_put : decodeWord .floor 31049 = (.known (.put 49), .runnable) := by decide
theorem test_decode_hlt_50 : decodeWord .trunc 50 = (.known (.hlt 50), .invalidAddress) := by decide
theorem test_decode_jlt_50 : decodeWord .trunc 3050 = (.known (.jlt 50), .invalidAddress) := by decide
theorem test_decode_unassigned : decodeWord .trunc 32123 = (.unknown 123, .invalidInstruction) := by decide
theorem test_decode_priority : decodeWord .trunc 99103 = (.unknown 103, .invalidInstruction) := by decide
theorem test_decode_neg_trunc : decodeWord .trunc (-7) = (.known (.hlt (-7)), .invalidAddress) := by decide
theorem test_decode_neg_floor : decodeWord .floor (-7) = (.unknown 993, .invalidInstruction) := by decide
theorem test_decode_neg_trunc_big : decodeWord .trunc (-23005) = (.unknown (-5), .invalidInstruction) := by decide
theorem test_decode_neg_floor_big : decodeWord .floor (-23005) = (.unknown 995, .invalidInstruction) := by decide
theorem test_decodeAt : (mk [(49, 31049)] 0 0 0).decodeAt 49 = (.known (.put 49), .runnable) ∧
    (mk [(49, 31049)] 0 0 0).decodeAt 50 = (.unknown 0, .invalidInstruction) ∧
    (mk [(49, 31049)] 0 0 0).decodeAt (-1) = (.unknown 0, .invalidInstruction) := by decide
theorem test_tableWord : decodeTableWord 16 23000 = some (.div 0) ∧ decodeTableWord 16 4000 = none := by decide
theorem test_render : (Instr.put 2).render = "PUT 002" ∧ (Instr.jmp 0).render = "JMP 000" := by decide

/-! ### clamp (2.1) -/

theorem test_clamp : [0, 99998, 100000, 9999800001, -99999, -100000].map clamp =
    [0, 99998, 99999, 99999, -99999, -99999] := by decide

/-! ### Single Steps (2.4 to 2.11) -/

theorem test_step_unassigned : stepped (mk [(0, 4000)] 0 5 6) = some (0, 5, 6, .invalidInstruction) := by decide
theorem test_step_badTarget : stepped (mk [(7, 23050)] 7 0 0) = some (7, 0, 0, .invalidAddress) := by decide
theorem test_step_pcPastEnd : stepped (mk [] 50 5 6) = some (50, 5, 6, .invalidInstruction) := by decide
theorem test_step_negative : stepped (mk [(3, -7)] 3 0 0) = some (3, 0, 0, .invalidAddress) := by decide
theorem test_hlt : stepped (mk [(49, 49)] 49 7 (-8)) = some (50, 7, -8, .halted) := by decide
theorem test_hlt_reset : stepped State.reset = some (1, 0, 0, .halted) := by decide
theorem test_jeq : [-1, 0, 1].map (fun ac => stepped (mk [(10, 1020)] 10 ac 0)) =
    [some (11, -1, 0, .runnable), some (20, 0, 0, .runnable), some (11, 1, 0, .runnable)] := by decide
theorem test_jgt : [-1, 0, 1].map (fun ac => stepped (mk [(10, 2020)] 10 ac 0)) =
    [some (11, -1, 0, .runnable), some (11, 0, 0, .runnable), some (20, 1, 0, .runnable)] := by decide
theorem test_jlt : [-1, 0, 1].map (fun ac => stepped (mk [(10, 3020)] 10 ac 0)) =
    [some (20, -1, 0, .runnable), some (11, 0, 0, .runnable), some (11, 1, 0, .runnable)] := by decide
theorem test_jmp : stepped (mk [(10, 5020)] 10 5 0) = some (20, 5, 0, .runnable) := by decide
theorem test_jle : [-1, 0, 1].map (fun ac => stepped (mk [(10, 6020)] 10 ac 0)) =
    [some (20, -1, 0, .runnable), some (20, 0, 0, .runnable), some (11, 1, 0, .runnable)] := by decide
theorem test_jne : [-1, 0, 1].map (fun ac => stepped (mk [(10, 7020)] 10 ac 0)) =
    [some (20, -1, 0, .runnable), some (11, 0, 0, .runnable), some (20, 1, 0, .runnable)] := by decide
theorem test_lac : stepped (mk [(0, 10010), (10, -42)] 0 9 8) = some (1, -42, 8, .runnable) := by decide
theorem test_lac_itself : stepped (mk [(0, 10000)] 0 9 8) = some (1, 10000, 8, .runnable) := by decide
theorem test_pac : wordAfter (mk [(0, 11010)] 0 9 8) 10 = some 9 := by decide
theorem test_pac_next : wordAfter (mk [(0, 11001)] 0 (-99999) 8) 1 = some (-99999) := by decide
theorem test_lmq : stepped (mk [(0, 12010), (10, 99999)] 0 9 8) = some (1, 9, 99999, .runnable) := by decide
theorem test_pmq : wordAfter (mk [(0, 13049)] 0 9 8) 49 = some 8 := by decide
theorem test_pmq_itself : wordAfter (mk [(0, 13000)] 0 9 8) 0 = some 8 := by decide
theorem test_add_saturates : stepped (mk [(0, 20001), (1, 50000)] 0 50000 3) = some (1, 99999, 3, .runnable) := by decide
theorem test_add_itself : stepped (mk [(0, 20000)] 0 5 3) = some (1, 20005, 3, .runnable) := by decide
theorem test_sub : stepped (mk [(0, 21001), (1, 1)] 0 0 3) = some (1, -1, 3, .runnable) := by decide
theorem test_sub_saturates : stepped (mk [(0, 21001), (1, -99999)] 0 0 3) = some (1, 99999, 3, .runnable) := by decide
theorem test_mul_saturates : stepped (mk [(0, 22001), (1, 4)] 0 5 33333) = some (1, 5, 99999, .runnable) := by decide
theorem test_mul_negative : stepped (mk [(0, 22001), (1, -1)] 0 5 (-99999)) = some (1, 5, 99999, .runnable) := by decide
theorem test_div_signs : [(12, 9), (-12, 9), (12, -9), (-12, -9)].map
    (fun p => stepped (mk [(0, 23001), (1, p.2)] 0 77 p.1)) =
    [some (1, 3, 1, .runnable), some (1, -3, -1, .runnable), some (1, 3, -1, .runnable),
      some (1, -3, 1, .runnable)] := by decide
theorem test_div_zero : stepped (mk [(0, 23001)] 0 77 12) = some (1, 77, 12, .divideByZero) := by decide
theorem test_get_clamps : wordAfter { mk [(0, 30005)] 0 1 2 with input := [-123456789, 4] } 5 = some (-99999) := by decide
theorem test_get_waits : after (step (mk [(0, 30005)] 0 1 2)) = some (mk [(0, 30005)] 0 1 2) := by decide
theorem test_put : portsAfter (mk [(0, 31005), (5, -99999)] 0 1 2) = some [.output (-99999)] := by decide
theorem test_put_itself : portsAfter (mk [(0, 31000)] 0 1 2) = some [.output 31000] := by decide
theorem test_trace_before_output :
    portsAfter { mk [(0, 31000)] 0 1 2 with config := { negWord := .trunc, trace := true } } =
      some [.trace (.put 0), .output 31000] := by decide
theorem test_terminal : step { State.reset with cpu := .halted } = .refused (.stepInTerminalState .halted) := rfl
theorem test_store_zero_unlists : after (exec (.pac 5) (mk [(5, 7)] 0 0 0)) = some (mk [] 0 0 0) := by decide
theorem test_withFetchWord : stepped (State.reset.withFetchWord 16 5049) = some (49, 0, 0, .runnable) := by decide

/-! ### Loader (2.12) and resets (2.13) -/

/-- A load of these lines onto a machine that has run. -/
def loaded (lines : List String) : LoadResult × State :=
  load (lines.map .line) { mk [(9, 9)] 7 3 0 with cpu := .divideByZero }

theorem test_load_ok : loaded ["1: 50", "0: 60 // x", "7: -100000"] =
    (.ok, mk [(0, 60), (1, 50), (7, -99999)] 0 0 0) := by decide
theorem test_load_overwrite : loaded ["0:0", "0:31002"] = (.ok, mk [(0, 31002)] 0 0 0) := by decide
theorem test_load_badAddress : loaded ["0: 1", "50: 2", "1: 3"] =
    (.badAddress, { mk [(0, 1)] 0 0 0 with cpu := .halted }) := by decide
theorem test_load_badLine : loaded ["a: 100"] = (.badLine, { mk [] 0 0 0 with cpu := .halted }) := by decide
theorem test_load_badFile : load [.line "0: 1", .readFailure, .line "1: 2"] State.reset =
    (.badFile, { mk [(0, 1)] 0 0 0 with cpu := .halted }) := by decide
theorem test_parse_accepts : ["5: 123456789", "007: -0", "3:5//x", "1: 2   "].map (fun l => parseLine l.toList) =
    [.assign 5 (some 123456789), .assign 7 (some 0), .assign 3 (some 5), .assign 1 (some 2)] := by decide
theorem test_parse_rejects :
    ["-1: 5", "+1: 5", "3: +5", "3: 1.5", "3: --5", "1 : 2", "3:", ": 3"].map (fun l => parseLine l.toList) =
      List.replicate 8 .noMatch := by decide
theorem test_parse_edges : ["1: 2 trailing", " 3: 1", "", "// only a comment"].map (fun l => parseLine l.toList) =
    List.replicate 4 .noMatch := by decide
theorem test_warmReset : State.warmReset { mk [(13, 14285), (14, 4)] 6 4 14285 with cpu := .divideByZero } =
    mk [(13, 14285), (14, 4)] 0 0 0 := by decide

/-! ### Witnesses: each statement's hypotheses are met together -/

/-- A machine about to run the word at its PC, 49: the last address. -/
def at49 (w : Int) : State := mk [(49, w)] 49 5 6

theorem wit_step_next : State.reset.Inv ∧ ∃ s', step State.reset = .next s' :=
  ⟨⟨by decide, by decide, by decide, by decide, by decide, by decide, by simp [State.reset]⟩, _, rfl⟩
theorem wit_event_next : State.reset.Inv ∧ ∀ e : Event, ∃ s' r, handle e State.reset = .next (s', r) :=
  ⟨wit_step_next.1, fun e => by cases e <;> exact ⟨_, _, rfl⟩⟩
theorem wit_reachable : State.Reachable (mk [] 0 0 0) := .created Config.default []
theorem wit_reachable_event : ∃ s, State.Reachable s ∧ s.cpu = .halted :=
  ⟨_, .event (e := .step) wit_reachable rfl, rfl⟩
theorem wit_canonical : Memory.wf [(3, 7), (49, -1)] ∧ ∀ a, Memory.read [(3, 7), (49, -1)] a =
    Memory.read [(3, 7), (49, -1)] a := ⟨by decide, fun _ => rfl⟩
theorem wit_wellFormed_bounds : (Instr.hlt 0).wellFormed ∧ (Instr.put 49).wellFormed := by decide
theorem wit_runnable_word : decodeWord .floor 0 = (.known (.hlt 0), .runnable) ∧
    decodeWord .trunc 31049 = (.known (.put 49), .runnable) := by decide
theorem wit_table_bounds : ((0 : Int) ≤ 0 ∧ (0 : Int) < 50) ∧ ((0 : Int) ≤ 49 ∧ (49 : Int) < 50) := by decide
theorem wit_classified_bounds : ((0 : Int) ≤ 0 ∧ (0 : Int) ≤ 99999) ∧ ((0 : Int) ≤ 99999 ∧ (99999 : Int) ≤ 99999) := by decide

/-- The hypotheses on a fetch at PC, in one place. -/
abbrev fetches (s : State) (w : Int) : Prop :=
  s.cpu = .runnable ∧ 0 ≤ s.pc ∧ s.pc < 50 ∧ s.mem.read s.pc.toNat = w

theorem wit_unassigned : [4000, 4999, 8000, 9999, 14000, 19999, 24000, 29999, 32000, 99999].all
    (fun w => decide (fetches (at49 w) w)) = true := by decide
theorem wit_unassigned_low : fetches (mk [(0, 4000)] 0 5 6) 4000 := by decide
theorem wit_outOfRange : (31 : Int) ∈ assignedOpcodes ∧ fetches (at49 31050) 31050 ∧
    splitWord .trunc 31050 = (31, 50) ∧ fetches (at49 (-1)) (-1) ∧ splitWord .trunc (-1) = (0, -1) ∧
    fetches (at49 31049) 31049 ∧ splitWord .trunc 31049 = (31, 49) := by decide
theorem wit_not_hlt : ((50 : Int) ≤ 50 ∧ (50 : Int) ≤ 999) ∧ ((50 : Int) ≤ 999 ∧ (999 : Int) ≤ 999) := by decide
theorem wit_negative : fetches (at49 (-1)) (-1) ∧ fetches (at49 (-999)) (-999) ∧ fetches (at49 (-1000)) (-1000) ∧
    fetches (at49 (-99999)) (-99999) := by decide
theorem wit_decodeAt_bounds : ((-1 : Int) < 0 ∨ (50 : Int) ≤ -1) ∧ ((50 : Int) < 0 ∨ (50 : Int) ≤ 50) ∧
    ((0 : Int) ≤ 0 ∧ (0 : Int) < 50) ∧ ((0 : Int) ≤ 49 ∧ (49 : Int) < 50) := by decide
theorem wit_runs_decoded : (at49 11000).cpu = .runnable ∧ (at49 11000).decodeAt (at49 11000).pc =
    (.known (.pac 0), .runnable) ∧ ((∃ t, Instr.pac 0 = .get t) → (at49 11000).input ≠ []) :=
  ⟨by decide, by decide, fun ⟨_, h⟩ => by cases h⟩
theorem wit_runs_get : { at49 30049 with input := [7] }.decodeAt 49 = (.known (.get 49), .runnable) ∧
    { at49 30049 with input := [7] }.input ≠ [] := by decide
theorem wit_runs_encoded : fetches (at49 23049) (encode (.div 49)) ∧ (Instr.div 49).wellFormed := by decide
theorem wit_decode_failure : (at49 4000).cpu = .runnable ∧
    (at49 4000).decodeAt (at49 4000).pc = (.unknown 0, .invalidInstruction) ∧
    (at49 50).decodeAt (at49 50).pc = (.known (.hlt 50), .invalidAddress) := by decide
theorem wit_pc : (∃ s', step (at49 1000) = .next s') ∧ (at49 1000).decodeAt 49 = (.known (.jeq 0), .runnable) ∧
    (∃ s', step (at49 4000) = .next s') ∧ ((at49 4000).decodeAt 49).2 ≠ .runnable :=
  ⟨⟨_, rfl⟩, by decide, ⟨_, rfl⟩, by decide⟩
theorem wit_terminal : (State.reset.stop .halted).cpu ≠ .runnable ∧
    handle .warmReset (State.reset.stop .halted) = .next ((State.reset.stop .halted).warmReset, .done) ∧
    handle (.supply 1) (State.reset.stop .halted) = .next ((State.reset.stop .halted).setInput [1], .done) :=
  ⟨by decide, rfl, rfl⟩
theorem wit_stops : ∀ w ∈ [0, 4000, 50, 23000 + 1], ∃ s', step (at49 w) = .next s' ∧ s'.cpu ≠ .runnable := by
  intro w hw
  simp only [List.mem_cons, List.not_mem_nil, or_false] at hw
  rcases hw with rfl | rfl | rfl | rfl <;> exact ⟨_, rfl, by decide⟩
theorem wit_only_stores : (∃ s', step (at49 13048) = .next s') ∧
    (at49 13048).decodeAt 49 = (.known (.pmq 48), .runnable) ∧ (Instr.pmq 48).storesTo ≠ some 49 :=
  ⟨⟨_, rfl⟩, by decide, by decide⟩
theorem wit_registers : (∃ s', step (at49 10049) = .next s' ∧ s'.ac ≠ (at49 10049).ac) ∧
    (∃ s', step (at49 12049) = .next s' ∧ s'.mq ≠ (at49 12049).mq) :=
  ⟨⟨_, rfl, by decide⟩, ⟨_, rfl, by decide⟩⟩
theorem wit_store_seen : ∀ w ∈ [11049, 13000, 30049], ∃ s',
    step { at49 w with input := [31005] } = .next s' := by
  intro w hw
  simp only [List.mem_cons, List.not_mem_nil, or_false] at hw
  rcases hw with rfl | rfl | rfl <;> exact ⟨_, rfl⟩
theorem wit_store_seen_decodes : (at49 11049).decodeAt 49 = (.known (.pac 49), .runnable) ∧
    (at49 13000).decodeAt 49 = (.known (.pmq 0), .runnable) ∧
    (at49 30049).decodeAt 49 = (.known (.get 49), .runnable) := by decide
theorem wit_negWord : (∃ s', step (at49 0) = .next s') ∧ 0 ≤ (at49 0).mem.read (at49 0).pc.toNat ∧
    (∃ s', step (mk [] 50 0 0) = .next s') ∧ (50 : Int) ≤ (mk [] 50 0 0).pc ∧
    (∃ s', step (at49 (-1)) = .next s') ∧ (at49 (-1)).mem.read (at49 (-1)).pc.toNat < 0 :=
  ⟨⟨_, rfl⟩, by decide, ⟨_, rfl⟩, by decide, ⟨_, rfl⟩, by decide⟩
theorem wit_hlt : fetches (at49 49) 49 ∧ fetches (mk [] 0 5 6) 0 := by decide
theorem wit_effective_address : cellOf 0 = some 0 ∧ cellOf 49 = some 49 ∧ cellOf 50 = none ∧ cellOf (-1) = none := by decide
theorem wit_div_cases : (mk [(49, 9)] 1 5 6).mem.read (49 : Int).toNat ≠ 0 ∧
    (mk [(49, 9)] 1 5 6).mem.read (0 : Int).toNat = 0 ∧
    ∃ s', exec (.div 49) (mk [(49, 9)] 1 5 6) = .next s' := ⟨by decide, by decide, _, rfl⟩
theorem wit_get : cellOf 49 = some 49 ∧ { mk [] 1 5 6 with input := [100000, 3] }.input = 100000 :: [3] := by decide
theorem wit_get_waits : (at49 30000).cpu = .runnable ∧
    (at49 30000).decodeAt (at49 30000).pc = (.known (.get 0), .runnable) ∧ (at49 30000).input = [] := by decide
theorem wit_operand_outside : ((-1 : Int) < 0 ∨ (50 : Int) ≤ -1) ∧ ((50 : Int) < 0 ∨ (50 : Int) ≤ 50) ∧
    { mk [] 1 5 6 with input := [3] }.input ≠ [] := by decide
theorem wit_good_lines : ∀ p ∈ ([(0, 5), (49, -100000), (0, 6)] : List (Nat × Int)), p.1 < 50 := by decide
theorem wit_clamp_bounds : ((99999 : Int) < 100000) ∧ ((-100000 : Int) < -99999) ∧
    ((-99999 : Int) ≤ -99999 ∧ (-99999 : Int) ≤ 99999) ∧ ((-99999 : Int) ≤ 99999 ∧ (99999 : Int) ≤ 99999) := by decide
theorem wit_failure_kinds : (LoadItem.readFailure = .readFailure ∧ LoadResult.badFile = .badFile) ∧
    (LoadItem.noMatch = .noMatch ∧ LoadResult.badLine = .badLine) := by decide
theorem wit_first_failure : ∃ a v, LoadItem.assign 50 (some 1) = .assign a v ∧ 50 ≤ a := ⟨_, _, rfl, by decide⟩
/-- 45_program_loader.md R153 ("`007` is address 7") and decision D9 ("`ws` is space or tab"), at their edges. -/
theorem test_token_words : decimal ['0', '0', '7'] = 7 ∧ decimal ['1', '2', '0'] = 120 ∧
    (['0', '9'].all isDigit && !(['/', ':', '-', ' ', 'a'].any isDigit)) = true ∧
    ([' ', Char.ofNat 9].all isBlank && !([Char.ofNat 10, Char.ofNat 13, '0', '/'].any isBlank)) = true := by decide
theorem wit_lineFits : LineFits ['4', '9', ':', ' ', '-', '7', ' ', '/', '/', 'x'] 49 (-7) :=
  ⟨['4', '9'], [' '], ['-'], ['7'], [' '], ['/', '/', 'x'], rfl, by simp, by simp [isDigit], by simp [isBlank],
    .inr rfl, by simp, by simp [isDigit], by simp [isBlank], .inr ⟨['x'], rfl⟩, by simp [decimal], by simp [decimal]⟩
theorem wit_run_loop : State.reset.cpu = .runnable ∧ (∃ s', step State.reset = .next s') ∧
    ∃ s', runLoop 1 State.reset = .next s' ∧ s'.cpu ≠ .runnable := ⟨rfl, ⟨_, rfl⟩, _, rfl, by decide⟩
theorem wit_unsafe : (∃ s', step (at49 4000) = .next s' ∧ ¬ s'.safe) ∧ (∃ s', step (at49 0) = .next s' ∧ s'.safe) :=
  ⟨⟨_, rfl, by simp [State.safe, isError, State.stop]⟩, ⟨_, rfl, rfl⟩⟩

end Sys2Proof.Tests
end

section
/-! PROOFS for 10_state.md. First what an instruction and a Step do as equations and one case split, then
the machine invariant through every update, then the statements. -/

namespace Sys2Proof.Machine

/-! ### The effect of an instruction that can run -/

/-- The state an operation answers when its target names a memory word (`exec_eq_effect`): step 3 of
40_cycle_and_halt.md R81 without the fault for an operand outside memory. -/
def effect (i : Instr) (s : State) : State :=
  match i with
  | .hlt _ => s.stop .halted
  | .jeq t => jumpIf (acZero s.ac) t s
  | .jgt t => jumpIf (acPositive s.ac) t s
  | .jlt t => jumpIf (acNegative s.ac) t s
  | .jmp t => jumpIf true t s
  | .jle t => jumpIf (acNotPositive s.ac) t s
  | .jne t => jumpIf (acNonzero s.ac) t s
  | .lac t => s.setAc (s.mem.read t.toNat)
  | .pac t => s.setMem (s.mem.write t.toNat s.ac)
  | .lmq t => s.setMq (s.mem.read t.toNat)
  | .pmq t => s.setMem (s.mem.write t.toNat s.mq)
  | .add t => s.setAc (clamp (s.ac + s.mem.read t.toNat))
  | .sub t => s.setAc (clamp (s.ac - s.mem.read t.toNat))
  | .mul t => s.setMq (clamp (s.mq * s.mem.read t.toNat))
  | .div t => if s.mem.read t.toNat = 0 then s.stop .divideByZero else divide (s.mem.read t.toNat) s
  | .get t =>
    match s.input with
    | [] => s
    | v :: rest => ((s.setInput rest).emit (.input v)).setMem (s.mem.write t.toNat (clamp v))
  | .put t => s.emit (.output (s.mem.read t.toNat))

theorem effect_get_nil {s : State} (h : s.input = []) (t : Int) : effect (.get t) s = s := by
  simp [effect, h]

theorem effect_get_cons {s : State} {v : Int} {rest : List Int} (h : s.input = v :: rest) (t : Int) :
    effect (.get t) s =
      ((s.setInput rest).emit (.input v)).setMem (s.mem.write t.toNat (clamp v)) := by
  simp [effect, h]

theorem effect_get_cases (t : Int) (s : State) :
    (s.input = [] ∧ effect (.get t) s = s) ∨
    (∃ v rest, s.input = v :: rest ∧ effect (.get t) s =
      ((s.setInput rest).emit (.input v)).setMem (s.mem.write t.toNat (clamp v))) := by
  cases hin : s.input with
  | nil => exact .inl ⟨rfl, effect_get_nil hin t⟩
  | cons v rest => exact .inr ⟨v, rest, rfl, effect_get_cons hin t⟩

theorem effect_div_cases (t : Int) (s : State) :
    (s.mem.read t.toNat = 0 ∧ effect (.div t) s = s.stop .divideByZero) ∨
    (s.mem.read t.toNat ≠ 0 ∧ effect (.div t) s = divide (s.mem.read t.toNat) s) := by
  by_cases hz : s.mem.read t.toNat = 0
  · exact .inl ⟨hz, if_pos hz⟩
  · exact .inr ⟨hz, if_neg hz⟩

/-- A well-formed instruction never faults: its operand is a memory word. -/
theorem exec_eq_effect {i : Instr} (hi : i.wellFormed) (s : State) : exec i s = .next (effect i s) := by
  have hcell : cellOf i.target = some i.target.toNat := cellOf_of_range hi.1 hi.2
  cases i with
  | hlt | jeq | jgt | jlt | jmp | jle | jne => rfl
  | lac | lmq | add | sub | mul | div | put => exact readOperand_some hcell s _
  | pac | pmq => exact writeOperand_some hcell _ s
  | get t =>
    cases hin : s.input with
    | nil => simp [exec, execGet, hin, effect_get_nil hin]
    | cons v rest =>
      rw [effect_get_cons hin]
      simp only [exec, execGet, hin]
      exact writeOperand_some hcell _ _

/-! ### All that a Step does -/

/-- A word that decodes as runnable is a well-formed instruction: the `unknown` tag never is (R86). -/
theorem decodeWord_runnable {nw : NegWord} {w : Int} {d : Decoded} (h : decodeWord nw w = (d, .runnable)) :
    ∃ i, d = .known i ∧ i.wellFormed := by
  rcases decodeWord_cases nw w with ⟨-, e⟩ | ⟨_, -, -, e⟩ | ⟨row, hrow, hlow, hhigh, e⟩ <;>
    rw [e] at h <;> cases h
  obtain ⟨-, htarget, -, -⟩ := opcodeTable_build (lookupOpcode_some hrow).1 (splitWord nw w).2
  exact ⟨_, rfl, by rw [Instr.wellFormed, htarget]; exact ⟨hlow, hhigh⟩⟩

/-- What decodes as runnable stands inside memory and is a well-formed instruction. -/
theorem decodeAt_runnable {s : State} {a : Int} {d : Decoded} (h : s.decodeAt a = (d, .runnable)) :
    0 ≤ a ∧ a < memSize ∧ ∃ i, d = .known i ∧ i.wellFormed := by
  rcases decodeAt_cases s a with ⟨k, hk, e⟩ | ⟨-, e⟩ <;> rw [e] at h
  · obtain ⟨hlow, hhigh, -⟩ := cellOf_eq_some.1 hk
    exact ⟨hlow, hhigh, decodeWord_runnable h⟩
  · cases h

/-- What decodes as runnable and known is well formed. -/
theorem wellFormed_of_decodeAt {s : State} {a : Int} {i : Instr}
    (h : s.decodeAt a = (.known i, .runnable)) : i.wellFormed := by
  obtain ⟨-, -, j, hj, hwf⟩ := decodeAt_runnable h
  cases hj
  exact hwf

theorem step_of_terminal {s : State} (hc : s.cpu ≠ .runnable) :
    step s = .refused (.stepInTerminalState s.cpu) := by
  cases hcpu : s.cpu with
  | runnable => exact absurd hcpu hc
  | halted | invalidInstruction | invalidAddress | divideByZero => simp only [step, hcpu]

theorem awaitsInput_eq_false {s : State} {i : Instr} :
    s.awaitsInput i = false ↔ ((∃ t, i = .get t) → s.input ≠ []) := by
  rw [← Bool.not_eq_true, awaitsInput_eq_true, not_and]

theorem step_of_decode_failure {s : State} (hc : s.cpu = .runnable) (hv : (s.decodeAt s.pc).2 ≠ .runnable) :
    step s = .next (s.stop (s.decodeAt s.pc).2) := by
  rcases hd : s.decodeAt s.pc with ⟨d, v⟩
  cases v <;> simp [step, hc, cycle, hd] at hv ⊢

theorem step_of_waiting {s : State} {i : Instr} (hc : s.cpu = .runnable)
    (hd : s.decodeAt s.pc = (.known i, .runnable)) (hw : s.awaitsInput i = true) : step s = .next s := by
  simp [step, hc, cycle, hd, perform, hw]

theorem step_eq_effect {s : State} {i : Instr} (hc : s.cpu = .runnable)
    (hd : s.decodeAt s.pc = (.known i, .runnable)) (hw : s.awaitsInput i = false) :
    step s = .next (effect i (s.enter i)) := by
  rw [step_of_decoded hc hd hw, exec_eq_effect (wellFormed_of_decodeAt hd)]

/-- The three ways a Step can go, by what stands at PC: nothing that runs, a GET that waits, or an
instruction that runs. R86's fallback arm is not among them. -/
theorem fetch_cases (s : State) :
    (s.decodeAt s.pc).2 ≠ .runnable ∨
    (∃ i, s.decodeAt s.pc = (.known i, .runnable) ∧ s.awaitsInput i = true) ∨
    (∃ i, s.decodeAt s.pc = (.known i, .runnable) ∧ s.awaitsInput i = false) := by
  rcases hd : s.decodeAt s.pc with ⟨d, v⟩
  by_cases hv : v = .runnable
  · subst hv
    obtain ⟨-, -, i, rfl, -⟩ := decodeAt_runnable hd
    cases hw : s.awaitsInput i with
    | true => exact .inr (.inl ⟨i, rfl, hw⟩)
    | false => exact .inr (.inr ⟨i, rfl, hw⟩)
  · exact .inl hv

/-- The next state of a Step whose decode fails (R82). -/
theorem step_next_of_decode_failure {s s' : State} (hs : step s = .next s')
    (hv : (s.decodeAt s.pc).2 ≠ .runnable) : s' = s.stop (s.decodeAt s.pc).2 := by
  rw [step_of_decode_failure (step_cases hs).1 hv] at hs
  exact (Host.Outcome.next.inj hs).symm

/-- The next state of a Step whose decode succeeds (R81, R142). -/
theorem step_next_of_decoded {s s' : State} {i : Instr} (hs : step s = .next s')
    (hd : s.decodeAt s.pc = (.known i, .runnable)) :
    (s.awaitsInput i = true ∧ s' = s) ∨ (s.awaitsInput i = false ∧ s' = effect i (s.enter i)) := by
  have hc : s.cpu = .runnable := (step_cases hs).1
  cases hw : s.awaitsInput i with
  | true =>
    rw [step_of_waiting hc hd hw] at hs
    exact .inl ⟨rfl, (Host.Outcome.next.inj hs).symm⟩
  | false =>
    rw [step_eq_effect hc hd hw] at hs
    exact .inr ⟨rfl, (Host.Outcome.next.inj hs).symm⟩

/-- Every next state of a Step, written out. -/
theorem step_next_cases {s s' : State} (hs : step s = .next s') :
    ((s.decodeAt s.pc).2 ≠ .runnable ∧ s' = s.stop (s.decodeAt s.pc).2) ∨
    (∃ i, s.decodeAt s.pc = (.known i, .runnable) ∧ s.awaitsInput i = true ∧ s' = s) ∨
    (∃ i, s.decodeAt s.pc = (.known i, .runnable) ∧ s.awaitsInput i = false ∧
      s' = effect i (s.enter i)) := by
  rcases fetch_cases s with hv | ⟨i, hd, -⟩ | ⟨i, hd, -⟩
  · exact .inl ⟨hv, step_next_of_decode_failure hs hv⟩
  all_goals
    rcases step_next_of_decoded hs hd with h | h
    · exact .inr (.inl ⟨i, hd, h⟩)
    · exact .inr (.inr ⟨i, hd, h⟩)

/-! ### What an effect does to each part of the state -/

/-- Where PC is after an operation that runs from `s` (10_state.md R16). -/
theorem effect_enter_pc (i : Instr) (s : State) : (effect i (s.enter i)).pc = nextPc i s.ac s.pc := by
  cases i with
  | jeq | jgt | jlt | jmp | jle | jne =>
    simp [effect, nextPc, acZero, acPositive, acNegative, acNotPositive, acNonzero]
  | hlt | lac | pac | lmq | pmq | add | sub | mul | put => simp [effect, nextPc]
  | div t => rcases effect_div_cases t (s.enter (.div t)) with ⟨-, e⟩ | ⟨-, e⟩ <;> simp [e, nextPc]
  | get t => rcases effect_get_cases t (s.enter (.get t)) with ⟨-, e⟩ | ⟨v, rest, -, e⟩ <;> simp [e, nextPc]

/-- Only the word an instruction stores to can read differently after it (20_memory.md R45). -/
theorem effect_mem_read {i : Instr} (hi : i.wellFormed) {a : Nat} (ha : i.storesTo ≠ some a) (s : State) :
    (effect i s).mem.read a = s.mem.read a := by
  have hcell : cellOf i.target = some i.target.toNat := cellOf_of_range hi.1 hi.2
  have store_elsewhere (h : cellOf i.target ≠ some a) (v : Int) :
      (s.mem.write i.target.toNat v).read a = s.mem.read a := by
    rw [read_write, if_neg fun e : a = i.target.toNat => h (e ▸ hcell)]
  cases i with
  | hlt | jeq | jgt | jlt | jmp | jle | jne | lac | lmq | add | sub | mul | put => simp [effect]
  | pac | pmq => exact store_elsewhere ha _
  | div t => rcases effect_div_cases t s with ⟨-, e⟩ | ⟨-, e⟩ <;> simp [e]
  | get t =>
    rcases effect_get_cases t s with ⟨-, e⟩ | ⟨v, rest, -, e⟩ <;> rw [e]
    exact store_elsewhere ha _

/-- An operation that changes AC is LAC, ADD, SUB or DIV (10_state.md R12). -/
theorem effect_ac_changed {i : Instr} {s : State} (h : (effect i s).ac ≠ s.ac) :
    ∃ t, i = .lac t ∨ i = .add t ∨ i = .sub t ∨ i = .div t := by
  cases i with
  | lac | add | sub | div => simp
  | hlt | jeq | jgt | jlt | jmp | jle | jne | pac | lmq | pmq | mul | put => simp [effect] at h
  | get t => rcases effect_get_cases t s with ⟨-, e⟩ | ⟨v, rest, -, e⟩ <;> simp [e] at h

/-- An operation that changes MQ is LMQ, MUL or DIV (10_state.md R13). -/
theorem effect_mq_changed {i : Instr} {s : State} (h : (effect i s).mq ≠ s.mq) :
    ∃ t, i = .lmq t ∨ i = .mul t ∨ i = .div t := by
  cases i with
  | lmq | mul | div => simp
  | hlt | jeq | jgt | jlt | jmp | jle | jne | lac | pac | pmq | add | sub | put => simp [effect] at h
  | get t => rcases effect_get_cases t s with ⟨-, e⟩ | ⟨v, rest, -, e⟩ <;> simp [e] at h

/-- No operation changes NEGWORD or TRACE. -/
@[simp] theorem effect_config (i : Instr) (s : State) : (effect i s).config = s.config := by
  cases i with
  | hlt | jeq | jgt | jlt | jmp | jle | jne | lac | pac | lmq | pmq | add | sub | mul | put => simp [effect]
  | div t => rcases effect_div_cases t s with ⟨-, e⟩ | ⟨-, e⟩ <;> simp [e]
  | get t => rcases effect_get_cases t s with ⟨-, e⟩ | ⟨v, rest, -, e⟩ <;> simp [e]

/-- Equal but for the trace flag and the record of the ports. -/
def AgreeOffTrace (s t : State) : Prop :=
  sameMachine s t ∧ s.input = t.input ∧ s.config.negWord = t.config.negWord

theorem AgreeOffTrace.outcome {s t : State} (h : AgreeOffTrace s t) : sameMachine s t ∧ s.input = t.input :=
  ⟨h.1, h.2.1⟩

theorem AgreeOffTrace.cpu {s t : State} (h : AgreeOffTrace s t) : t.cpu = s.cpu := by
  obtain ⟨⟨-, -, -, -, hcpu⟩, -⟩ := h
  exact hcpu.symm

theorem AgreeOffTrace.decodeAt_pc {s t : State} (h : AgreeOffTrace s t) :
    t.decodeAt t.pc = s.decodeAt s.pc := by
  obtain ⟨⟨hmem, hpc, -, -, -⟩, -, hneg⟩ := h
  simp only [State.decodeAt, hmem, hpc, hneg]

theorem AgreeOffTrace.awaitsInput {s t : State} (h : AgreeOffTrace s t) (i : Instr) :
    t.awaitsInput i = s.awaitsInput i := by
  obtain ⟨-, hinput, -⟩ := h
  rw [Bool.eq_iff_iff, awaitsInput_eq_true, awaitsInput_eq_true, hinput]

theorem AgreeOffTrace.stop {s t : State} (h : AgreeOffTrace s t) (v : CpuState) :
    AgreeOffTrace (s.stop v) (t.stop v) := by
  obtain ⟨⟨hmem, hpc, hac, hmq, -⟩, hrest⟩ := h
  exact ⟨⟨hmem, hpc, hac, hmq, rfl⟩, hrest⟩

theorem AgreeOffTrace.enter {s t : State} (h : AgreeOffTrace s t) (i : Instr) :
    AgreeOffTrace (s.enter i) (t.enter i) := by
  simpa [AgreeOffTrace, sameMachine] using h

/-- No operation reads the trace flag or the record of the ports. -/
theorem AgreeOffTrace.effect {s t : State} (h : AgreeOffTrace s t) (i : Instr) :
    AgreeOffTrace (effect i s) (effect i t) := by
  obtain ⟨⟨hmem, hpc, hac, hmq, hcpu⟩, hinput, hneg⟩ := h
  cases i with
  | hlt | jeq | jgt | jlt | jmp | jle | jne | lac | pac | lmq | pmq | add | sub | mul | put =>
    simp [AgreeOffTrace, sameMachine, Machine.effect, hmem, hpc, hac, hmq, hcpu, hinput, hneg]
  | div t₀ =>
    by_cases hz : t.mem.read t₀.toNat = 0 <;>
      simp [AgreeOffTrace, sameMachine, Machine.effect, hmem, hpc, hac, hmq, hcpu, hinput, hneg, hz]
  | get t₀ =>
    cases hin : t.input <;>
      simp [AgreeOffTrace, sameMachine, Machine.effect, hmem, hpc, hac, hmq, hcpu, hinput, hneg, hin]

/-! ### The machine invariant through every update -/

theorem State.Inv.of_zeroed {s : State} (hmem : s.mem = []) (hpc : s.pc = 0) (hac : s.ac = 0) (hmq : s.mq = 0)
    (hout : ∀ v, PortEvent.output v ∈ s.log → inRange v) : s.Inv where
  memCanonical := hmem ▸ wf_nil
  memInRange := by simp [hmem]
  acInRange := by rw [hac]; decide
  mqInRange := by rw [hmq]; decide
  pcLow := hpc.ge
  pcHigh := by simp [hpc]
  outInRange := hout

section
variable {s : State} (h : s.Inv)
include h

theorem State.Inv.readInRange (a : Nat) : inRange (s.mem.read a) := read_inRange h.memInRange a

theorem State.Inv.stop (c : CpuState) : (s.stop c).Inv := { h with }

theorem State.Inv.setInput (vs : List Int) : (s.setInput vs).Inv := { h with }

theorem State.Inv.setAc {v : Int} (hv : inRange v) : (s.setAc v).Inv := { h with acInRange := hv }

theorem State.Inv.setMq {v : Int} (hv : inRange v) : (s.setMq v).Inv := { h with mqInRange := hv }

theorem State.Inv.setPc {a : Int} (h0 : 0 ≤ a) (h1 : a ≤ memSize) : (s.setPc a).Inv :=
  { h with pcLow := h0, pcHigh := h1 }

theorem State.Inv.store {a : Nat} (ha : (a : Int) < memSize) {v : Int} (hv : inRange v) :
    (s.setMem (s.mem.write a v)).Inv :=
  { h with memCanonical := wf_write h.memCanonical ha v, memInRange := write_inRange h.memInRange a hv }

theorem State.Inv.emit {e : PortEvent} (he : ∀ v, e = .output v → inRange v) : (s.emit e).Inv where
  __ := h
  outInRange v hv := by
    rcases List.mem_append.1 hv with hv | hv
    · exact h.outInRange v hv
    · exact he v (List.mem_singleton.1 hv).symm

theorem State.Inv.jumpIf (c : Bool) {t : Int} (h0 : 0 ≤ t) (h1 : t < memSize) : (jumpIf c t s).Inv := by
  cases c with
  | false => exact h
  | true => exact h.setPc h0 h1.le

theorem State.Inv.warmReset : s.warmReset.Inv :=
  (((h.setPc (a := 0) (by decide) (by decide)).setAc (v := 0) (by decide)).setMq (v := 0) (by decide)).stop
    .runnable

theorem State.Inv.coldReset (tr : Bool) : (s.coldReset tr).Inv := .of_zeroed rfl rfl rfl rfl h.outInRange

theorem State.Inv.beginLoad : s.beginLoad.Inv := .of_zeroed rfl rfl rfl rfl h.outInRange

/-- The truncated quotient and the remainder are no larger than the dividend (43_arithmetic.md R126). -/
theorem State.Inv.divide (m : Int) : (divide m s).Inv := by
  have hq : (s.mq.tdiv m).natAbs ≤ s.mq.natAbs := Int.natAbs_tdiv_le_natAbs s.mq m
  have hr : (s.mq.tmod m).natAbs ≤ s.mq.natAbs := Int.natAbs_tmod s.mq m ▸ Nat.mod_le _ _
  have hmq := h.mqInRange
  refine (h.setAc ?_).setMq ?_ <;> simp only [inRange, vMax, vMin] at hmq ⊢ <;> omega

/-- Entering an operation fetched from memory leaves PC at most one past the last word (10_state.md R15). -/
theorem State.Inv.enter (hpc : s.pc < memSize) (i : Instr) : (s.enter i).Inv := by
  have advanced : s.advancePc.Inv := h.setPc (by have := h.pcLow; omega) hpc
  unfold State.enter State.report
  split
  · exact advanced.emit (by simp)
  · exact advanced

theorem State.Inv.effect {i : Instr} (hi : i.wellFormed) : (effect i s).Inv := by
  obtain ⟨hlow, hhigh⟩ := hi
  have hcell : (i.target.toNat : Int) < memSize := by omega
  cases i with
  | hlt => exact h.stop _
  | jeq | jgt | jlt | jmp | jle | jne => exact h.jumpIf _ hlow hhigh
  | lac => exact h.setAc (h.readInRange _)
  | lmq => exact h.setMq (h.readInRange _)
  | pac => exact h.store hcell h.acInRange
  | pmq => exact h.store hcell h.mqInRange
  | add | sub => exact h.setAc (clamp_inRange _)
  | mul => exact h.setMq (clamp_inRange _)
  | div t =>
    rcases effect_div_cases t s with ⟨-, e⟩ | ⟨-, e⟩ <;> rw [e]
    · exact h.stop _
    · exact h.divide _
  | get t =>
    rcases effect_get_cases t s with ⟨-, e⟩ | ⟨v, rest, -, e⟩ <;> rw [e]
    · exact h
    · exact ((h.setInput rest).emit (by simp)).store hcell (clamp_inRange v)
  | put => exact h.emit fun v hv => PortEvent.output.inj hv ▸ h.readInRange _

theorem State.Inv.step {s' : State} (hs : step s = .next s') : s'.Inv := by
  rcases step_next_cases hs with ⟨-, rfl⟩ | ⟨_, -, -, rfl⟩ | ⟨i, hd, -, rfl⟩
  · exact h.stop _
  · exact h
  · exact (h.enter (decodeAt_runnable hd).2.1 i).effect (wellFormed_of_decodeAt hd)

theorem State.Inv.loadItem {item : LoadItem} {s' : State} (hl : loadItem item s = .ok s') : s'.Inv := by
  rcases loadItem_cases item s with ⟨-, e⟩ | ⟨-, e⟩ | ⟨_, _, -, -, e⟩ | ⟨_, -, -, e⟩ | ⟨a, x, -, ha, e⟩ <;>
    rw [e] at hl <;> cases hl
  exact h.store ha (clamp_inRange x)

theorem State.Inv.loadItems (items : List LoadItem) : (loadItems items s).2.Inv := by
  induction items generalizing s with
  | nil => exact h.stop .runnable
  | cons item rest ih =>
    cases hl : Machine.loadItem item s with
    | error r => rw [loadItems_error hl]; exact h
    | ok s' => rw [loadItems_ok hl]; exact ih (h.loadItem hl)

theorem State.Inv.load (items : List InputItem) : (load items s).2.Inv := h.beginLoad.loadItems _

theorem State.Inv.handle {e : Event} {s' : State} {r : Response} (he : handle e s = .next (s', r)) :
    s'.Inv := by
  rcases handle_cases he with ⟨tr, -, rfl, -⟩ | ⟨-, rfl, -⟩ | ⟨items, -, rfl, -⟩ | ⟨v, -, rfl, -⟩ |
    ⟨-, hs, -⟩ | ⟨-, rfl, -⟩ | ⟨_, -, rfl, -⟩
  · exact h.coldReset tr
  · exact h.warmReset
  · exact h.load items
  · exact h.setInput _
  · exact h.step hs
  · exact h
  · exact h

end

/-! ### The invariant: at creation, by every Step and event, in every reachable state -/

/-- Settles O3: the created machine is all zero and has delivered nothing. -/
theorem createdMachineMeetsInvariant : Obligations.CreatedMachineMeetsInvariant := by
  intro c vs
  exact .of_zeroed rfl rfl rfl rfl (by simp [State.reset])

/-- Settles O4: each of the updates a Step is made of keeps the invariant. -/
theorem stepKeepsInvariant : Obligations.StepKeepsInvariant := fun _ _ h hs => h.step hs

/-- Settles O56: resets zero the registers, a load stores clamped words below 50, and a Step keeps it. -/
theorem everyEventKeepsInvariant : Obligations.EveryEventKeepsInvariant := fun _ _ _ _ h he => h.handle he

theorem State.Reachable.inv {s : State} (h : s.Reachable) : s.Inv := by
  induction h with
  | created c vs => exact createdMachineMeetsInvariant c vs
  | event _ he ih => exact ih.handle he

/-- Settles O5: reachable states meet the invariant, and what every listed word satisfies every read does. -/
theorem reachableWordsStayInRange : Obligations.ReachableWordsStayInRange := by
  intro s hs
  exact ⟨hs.inv.readInRange, hs.inv.acInRange, hs.inv.mqInRange⟩

/-- Settles O6: reachable states meet the invariant. -/
theorem reachablePcIsAtMostOnePastMemory : Obligations.ReachablePcIsAtMostOnePastMemory := by
  intro s hs
  exact ⟨hs.inv.pcLow, hs.inv.pcHigh, hs.inv.memCanonical⟩

/-! ### What a Step changes -/

/-- Settles O23: a failed decode only sets CPUSTATE, and an instruction that does not wait moves PC by its effect. -/
theorem pcAdvancesUnlessAJumpIsTaken : Obligations.PcAdvancesUnlessAJumpIsTaken := by
  intro s s' hs
  refine ⟨fun i hd hget => ?_, fun hv => ?_⟩
  · rcases step_next_of_decoded hs hd with ⟨hw, -⟩ | ⟨-, rfl⟩
    · rw [awaitsInput_eq_false.2 hget] at hw
      cases hw
    · exact effect_enter_pc i s
  · rw [step_next_of_decode_failure hs hv, stop_pc]

/-- Settles O30: a failed decode and a GET that waits touch no memory, an operation only the word it stores to. -/
theorem onlyStoresChangeMemory : Obligations.OnlyStoresChangeMemory := by
  intro s s' hs
  refine ⟨fun hv => by rw [step_next_of_decode_failure hs hv, stop_mem], fun i hd a ha => ?_⟩
  rcases step_next_of_decoded hs hd with ⟨-, rfl⟩ | ⟨-, rfl⟩
  · rfl
  · rw [effect_mem_read (wellFormed_of_decodeAt hd) ha, enter_mem]

/-- Settles O31: only an operation that runs can change AC or MQ, and nothing changes the parameters. -/
theorem registersChangeOnlyByTheirOperations : Obligations.RegistersChangeOnlyByTheirOperations := by
  intro s s' hs
  rcases step_next_cases hs with ⟨-, rfl⟩ | ⟨_, -, -, rfl⟩ | ⟨i, hd, -, rfl⟩
  · exact ⟨fun hac => absurd rfl hac, fun hmq => absurd rfl hmq, rfl⟩
  · exact ⟨fun hac => absurd rfl hac, fun hmq => absurd rfl hmq, rfl⟩
  · simp only [hd, Decoded.known.injEq]
    exact ⟨fun hac => effect_ac_changed (by rwa [enter_ac]), fun hmq => effect_mq_changed (by rwa [enter_mq]),
      by rw [effect_config, enter_config]⟩

/-- Settles O34: the second machine fetches the same, so both Steps go the same one of the three ways, and no
operation reads what they differ in. -/
theorem traceNeverAffectsTheMachine : Obligations.TraceNeverAffectsTheMachine := by
  intro s tr l
  have agree : AgreeOffTrace s { s with config := { s.config with trace := tr }, log := l } :=
    ⟨⟨rfl, rfl, rfl, rfl, rfl⟩, rfl, rfl⟩
  revert agree
  generalize ({ s with config := { s.config with trace := tr }, log := l } : State) = t
  intro agree
  have hcpu := agree.cpu
  have hdec := agree.decodeAt_pc
  by_cases hc : s.cpu = .runnable
  · rcases fetch_cases s with hv | ⟨i, hd, hw⟩ | ⟨i, hd, hw⟩
    · rw [step_of_decode_failure hc hv, step_of_decode_failure (hcpu.trans hc) (hdec ▸ hv), hdec]
      exact (agree.stop _).outcome
    · rw [step_of_waiting hc hd hw,
        step_of_waiting (hcpu.trans hc) (hdec.trans hd) ((agree.awaitsInput i).trans hw)]
      exact agree.outcome
    · rw [step_eq_effect hc hd hw,
        step_eq_effect (hcpu.trans hc) (hdec.trans hd) ((agree.awaitsInput i).trans hw)]
      exact ((agree.enter i).effect i).outcome
  · rw [step_of_terminal hc, step_of_terminal (hcpu ▸ hc)]
    exact congrArg Refusal.stepInTerminalState hcpu.symm

/-! ### Observation -/

theorem words_length (m : Memory) : m.words.length = 50 := by simp [Memory.words]

theorem words_getElem? (m : Memory) {a : Nat} (ha : a < 50) : m.words[a]? = some (m.read a) := by
  simp [Memory.words, ha]

/-- Settles O54: the answer is `observe`, whose memory list has one entry for each of the 50 addresses. -/
theorem observationReadsTheWholeState : Obligations.ObservationReadsTheWholeState := by
  intro s
  exact ⟨s.observe, rfl, words_length _, fun _ => words_getElem? _, rfl, rfl, rfl, rfl⟩

end Sys2Proof.Machine
end

section
/-! PROOFS for 20_memory.md: canonical memories, operands outside memory, what the next fetch sees of a store, and
what a Step does at the ports. -/

namespace Sys2Proof.Machine

/-! ### Canonical memories -/

/-- A canonical memory lists exactly the words that read nonzero. -/
theorem mem_iff_read {m : Memory} (h : m.wf) (c : Cell) : c ∈ m ↔ m.read c.1 = c.2 ∧ c.2 ≠ 0 := by
  obtain ⟨hsorted, hcells⟩ := h
  induction m with
  | nil => simp [eq_comm]
  | cons d rest ih =>
    obtain ⟨hd, hrest⟩ := List.pairwise_cons.1 hsorted
    obtain ⟨hdcell, hrestcells⟩ := List.forall_mem_cons.1 hcells
    have ih := ih hrest hrestcells
    by_cases hc : d.1 = c.1
    · have hnot : c ∉ rest := fun hmem => (hd c hmem).ne hc
      simp only [Memory.read, if_pos hc, List.mem_cons, hnot, or_false]
      refine ⟨?_, fun ⟨hword, _⟩ => Prod.ext hc.symm hword.symm⟩
      rintro rfl
      exact ⟨rfl, hdcell.2⟩
    · have hne : c ≠ d := fun e => hc (e ▸ rfl)
      simpa only [Memory.read, if_neg hc, List.mem_cons, hne, false_or] using ih

/-- Settles O7: both lists hold the same cells, in the same strictly rising order. -/
theorem canonicalMemoriesReadingAlikeAreEqual : Obligations.CanonicalMemoriesReadingAlikeAreEqual := by
  intro m n hm hn hread
  have : Std.Asymm fun c d : Cell => c.1 < d.1 := ⟨fun _ _ => Nat.lt_asymm⟩
  exact hm.1.eq_of_mem_iff hn.1 fun c => by rw [mem_iff_read hm, mem_iff_read hn, hread]

/-! ### Operands outside memory -/

theorem readOperand_none {t : Int} (h : cellOf t = none) (s : State) (k : Int → State) :
    readOperand t s k = .fault (.addressOutsideMemory t) := by
  simp [readOperand, memRead, h]

theorem writeOperand_none {t : Int} (h : cellOf t = none) (v : Int) (s : State) :
    writeOperand t v s = .fault (.addressOutsideMemory t) := by
  simp [writeOperand, memWrite, h]

theorem execGet_cons {s : State} {v : Int} {rest : List Int} (h : s.input = v :: rest) (t : Int) :
    execGet t s = writeOperand t (clamp v) ((s.setInput rest).emit (.input v)) := by
  simp [execGet, h]

/-- Settles O48: each data instruction is one read or one store of an operand that names no word. -/
theorem operandOutsideMemoryFaults : Obligations.OperandOutsideMemoryFaults := by
  intro t s ht
  have reads := readOperand_none (cellOf_eq_none.2 ht) s
  have stores := writeOperand_none (cellOf_eq_none.2 ht)
  refine ⟨reads _, stores _ s, reads _, stores _ s, reads _, reads _, reads _, reads _, fun hin => ?_, reads _⟩
  obtain ⟨v, rest, hin⟩ := List.exists_cons_of_ne_nil hin
  exact (execGet_cons hin t).trans (stores _ _)

/-! ### A store and the next fetch -/

/-- The next state of a Step that runs an instruction that does not wait. -/
theorem step_next_of_ready {s s' : State} {i : Instr} (hs : step s = .next s')
    (hd : s.decodeAt s.pc = (.known i, .runnable)) (hw : s.awaitsInput i = false) :
    s' = effect i (s.enter i) := by
  rcases step_next_of_decoded hs hd with ⟨hwaits, -⟩ | ⟨-, h⟩
  · exact absurd hwaits (ne_true_of_eq_false hw)
  · exact h

theorem awaitsInput_get_cons {s : State} {v : Int} {rest : List Int} (h : s.input = v :: rest) (t : Int) :
    s.awaitsInput (.get t) = false :=
  awaitsInput_eq_false.2 fun _ => by simp [h]

/-- Decoding where a word was just stored decodes that word (20_memory.md R52). -/
theorem decodeAt_setMem_write (s : State) {t : Int} (ht : 0 ≤ t ∧ t < memSize) (v : Int) :
    (s.setMem (s.mem.write t.toNat v)).decodeAt t = decodeWord s.config.negWord v := by
  simp [State.decodeAt, cellOf_of_range ht.1 ht.2]

/-- Settles O32: each of the three effects is a store at the target, on a state with the registers of `s`. -/
theorem storeIsSeenByTheNextFetch : Obligations.StoreIsSeenByTheNextFetch := by
  intro s s' t hs
  refine ⟨fun hd => ?_, fun hd => ?_, fun v rest hd hin => ?_⟩
  · rw [step_next_of_ready hs hd rfl]
    exact (decodeAt_setMem_write (s.enter _) (wellFormed_of_decodeAt hd) _).trans
      (by rw [enter_config, enter_ac])
  · rw [step_next_of_ready hs hd rfl]
    exact (decodeAt_setMem_write (s.enter _) (wellFormed_of_decodeAt hd) _).trans
      (by rw [enter_config, enter_mq])
  · rw [step_next_of_ready hs hd (awaitsInput_get_cons hin t), effect_get_cons ((enter_input s _).trans hin)]
    exact (decodeAt_setMem_write (((s.enter _).setInput rest).emit _) (wellFormed_of_decodeAt hd) _).trans
      (by rw [emit_config, setInput_config, enter_config])

/-! ### The ports -/

theorem enter_log_eq_append (s : State) (i : Instr) :
    (s.enter i).log = s.log ++ if s.config.trace then [.trace i] else [] := by
  rw [enter_log]
  split
  · rfl
  · exact (List.append_nil _).symm

/-- Only GET and PUT use a port. -/
theorem effect_ports_unchanged {i : Instr} (hget : ∀ t, i ≠ .get t) (hput : ∀ t, i ≠ .put t) (s : State) :
    (effect i s).log = s.log ∧ (effect i s).input = s.input := by
  cases i with
  | hlt | jeq | jgt | jlt | jmp | jle | jne | lac | pac | lmq | pmq | add | sub | mul => simp [effect]
  | div t => rcases effect_div_cases t s with ⟨-, e⟩ | ⟨-, e⟩ <;> simp [e]
  | get t => exact absurd rfl (hget t)
  | put t => exact absurd rfl (hput t)

/-- Settles O33: entering the operation records the trace event, and the operation what it does at its port. -/
theorem portEventsOfAStep : Obligations.PortEventsOfAStep := by
  intro s s' hs
  refine ⟨fun hv => ?_, fun i hd => ?_⟩
  · rw [step_next_of_decode_failure hs hv]
    exact ⟨rfl, rfl⟩
  · cases i with
    | hlt | jeq | jgt | jlt | jmp | jle | jne | lac | pac | lmq | pmq | add | sub | mul | div =>
      rw [step_next_of_ready hs hd rfl]
      exact (effect_ports_unchanged (by simp) (by simp) _).imp (·.trans (enter_log_eq_append s _))
        (·.trans (enter_input s _))
    | get t =>
      cases hin : s.input with
      | nil =>
        rcases step_next_of_decoded hs hd with ⟨-, rfl⟩ | ⟨hw, -⟩
        · exact ⟨rfl, hin⟩
        · exact absurd hin (awaitsInput_eq_false.1 hw ⟨t, rfl⟩)
      | cons v rest =>
        rw [step_next_of_ready hs hd (awaitsInput_get_cons hin t), ← enter_log_eq_append,
          effect_get_cons ((enter_input s _).trans hin)]
        exact ⟨rfl, rfl⟩
    | put t =>
      rw [step_next_of_ready hs hd rfl, ← enter_log_eq_append, ← enter_mem s (.put t)]
      exact ⟨rfl, enter_input s _⟩

end Sys2Proof.Machine
end

section
/-! PROOFS for 30_encoding.md. First the table and the split of a word as equations, then the decoder as one
equation per verdict, what a Step does where the decode fails, and the statements. -/

namespace Sys2Proof.Machine

/-! ### The opcode table -/

/-- The 17 opcodes of R62 are those of the table, so an opcode is unassigned exactly when no row has it. -/
theorem lookupOpcode_eq_none {o : Int} : lookupOpcode o = none ↔ o ∉ assignedOpcodes := by
  rw [show assignedOpcodes = opcodeTable.map OpcodeRow.opcode from rfl]
  simp [lookupOpcode]

open Laws.OpcodeRowOf in
theorem opcodeRowOf : (i : Instr) → Statement i
  | .hlt t => hlt t
  | .jeq t => jeq t
  | .jgt t => jgt t
  | .jlt t => jlt t
  | .jmp t => jmp t
  | .jle t => jle t
  | .jne t => jne t
  | .lac t => lac t
  | .pac t => pac t
  | .lmq t => lmq t
  | .pmq t => pmq t
  | .add t => add t
  | .sub t => sub t
  | .mul t => mul t
  | .div t => div t
  | .get t => get t
  | .put t => put t

/-- Every assigned opcode has an instruction with any target asked for. -/
theorem exists_instr_of_assigned {o : Int} (h : o ∈ assignedOpcodes) (t : Int) :
    ∃ i : Instr, i.opcode = o ∧ i.target = t := by
  obtain ⟨row, hrow, rfl⟩ := List.mem_map.1 (show o ∈ opcodeTable.map OpcodeRow.opcode from h)
  obtain ⟨hopcode, htarget, -, -⟩ := opcodeTable_build hrow t
  exact ⟨row.build t, hopcode, htarget⟩

theorem nonneg_of_assigned {o : Int} (h : o ∈ assignedOpcodes) : 0 ≤ o :=
  (by decide : ∀ o ∈ assignedOpcodes, 0 ≤ o) o h

theorem opcode_nonneg (i : Instr) : 0 ≤ i.opcode := by cases i <;> simp [Instr.opcode]

/-! ### The split of a word -/

/-- The two halves of a word give it back, however a negative word is split (R60, R65). -/
theorem splitWord_recompose (nw : NegWord) (w : Int) :
    (splitWord nw w).1 * opDiv + (splitWord nw w).2 = w := by
  cases nw with
  | trunc => exact Int.tdiv_mul_add_tmod w opDiv
  | floor => exact Int.fdiv_mul_add_fmod w opDiv

/-- Truncation splits a negative word as it splits its absolute value, both halves negated (R65). -/
theorem splitWord_trunc_of_neg {w : Int} (h : w < 0) :
    splitWord .trunc w = (-(-w / opDiv), -(-w % opDiv)) := by
  have habs : 0 ≤ -w := by omega
  rw [← Int.tdiv_eq_ediv_of_nonneg habs, ← Int.tmod_eq_emod_of_nonneg habs, Int.neg_tdiv, Int.neg_tmod,
    neg_neg, neg_neg, splitWord]

/-- Flooring takes quotient and remainder alike for words of both signs (R65). -/
theorem splitWord_floor (w : Int) : splitWord .floor w = (w / opDiv, w % opDiv) := by
  rw [splitWord, Int.fdiv_eq_ediv_of_nonneg w (by decide), Int.fmod_eq_emod_of_nonneg w (by decide)]

theorem splitWord_encode (nw : NegWord) {i : Instr} (hi : i.wellFormed) :
    splitWord nw (encode i) = (i.opcode, i.target) := by
  obtain ⟨hlow, hhigh⟩ := hi
  exact splitWord_compose nw (opcode_nonneg i) hlow (hhigh.trans (by decide))

/-! ### The decoder, one equation per verdict -/

/-- A word with an unassigned opcode (R63). -/
theorem decodeWord_unassigned {nw : NegWord} {w : Int} (h : (splitWord nw w).1 ∉ assignedOpcodes) :
    decodeWord nw w = (.unknown (splitWord nw w).2, .invalidInstruction) := by
  simp only [decodeWord, lookupOpcode_eq_none.2 h]

/-- A word that splits into an instruction's opcode and target decodes to that instruction, with the verdict its
target deserves (R64, R67). -/
theorem decodeWord_of_split {nw : NegWord} {w : Int} {i : Instr} (h : splitWord nw w = (i.opcode, i.target)) :
    decodeWord nw w = (.known i, if i.target < 0 ∨ 50 ≤ i.target then .invalidAddress else .runnable) := by
  obtain ⟨row, hrow, hbuild, -⟩ := opcodeRowOf i
  simp only [decodeWord, h, hrow, hbuild]
  split <;> rfl

/-- A known instruction has the opcode and target its word splits into. -/
theorem splitWord_of_decodeWord {nw : NegWord} {w : Int} {i : Instr} {v : CpuState}
    (h : decodeWord nw w = (.known i, v)) : splitWord nw w = (i.opcode, i.target) := by
  by_cases ho : (splitWord nw w).1 ∈ assignedOpcodes
  · obtain ⟨j, hopcode, htarget⟩ := exists_instr_of_assigned ho (splitWord nw w).2
    have hsplit : splitWord nw w = (j.opcode, j.target) := Prod.ext hopcode.symm htarget.symm
    rw [decodeWord_of_split hsplit] at h
    cases h
    exact hsplit
  · rw [decodeWord_unassigned ho] at h
    cases h

/-- The verdict on a word, by its opcode and then its target (R69). -/
theorem decodeWord_verdict (nw : NegWord) (w : Int) : (decodeWord nw w).2 =
    if (splitWord nw w).1 ∉ assignedOpcodes then .invalidInstruction
    else if (splitWord nw w).2 < 0 ∨ 50 ≤ (splitWord nw w).2 then .invalidAddress
    else .runnable := by
  by_cases ho : (splitWord nw w).1 ∈ assignedOpcodes
  · obtain ⟨i, hopcode, htarget⟩ := exists_instr_of_assigned ho (splitWord nw w).2
    rw [decodeWord_of_split (Prod.ext hopcode.symm htarget.symm), htarget, if_neg (not_not.2 ho)]
  · rw [decodeWord_unassigned ho, if_pos ho]

theorem decodeAt_inside (s : State) {a : Int} (h0 : 0 ≤ a) (h1 : a < 50) :
    s.decodeAt a = decodeWord s.config.negWord (s.mem.read a.toNat) := by
  simp only [State.decodeAt, cellOf_of_range h0 h1]

theorem decodeAt_outside (s : State) {a : Int} (h : a < 0 ∨ 50 ≤ a) :
    s.decodeAt a = (.unknown 0, .invalidInstruction) := by
  simp only [State.decodeAt, cellOf_eq_none.2 h]

/-! ### Encoding and decoding -/

/-- Settles O8: the word of an instruction splits into its opcode and target, and a well-formed target is in range. -/
theorem decodingAnEncodingGivesItBack : Obligations.DecodingAnEncodingGivesItBack := by
  rintro nw i ⟨hlow, hhigh⟩
  rw [decodeWord_of_split (splitWord_encode nw ⟨hlow, hhigh⟩), if_neg (not_or.2 ⟨hlow.not_gt, hhigh.not_ge⟩)]

/-- Settles O9: the word is put together again from the opcode and the target of what it decodes to. -/
theorem everyRunnableWordIsAnEncoding : Obligations.EveryRunnableWordIsAnEncoding := by
  intro nw w d h
  obtain ⟨i, rfl, hi⟩ := decodeWord_runnable h
  have hw := splitWord_recompose nw w
  rw [splitWord_of_decodeWord h] at hw
  exact ⟨i, rfl, hi, hw⟩

/-- Settles O10: each of these words is the encoding of the instruction it is said to decode to. -/
theorem opcodeTableRowsDecode : Obligations.OpcodeTableRowsDecode := by
  intro nw a h0 h1
  have back := decodingAnEncodingGivesItBack nw
  have ha : 0 ≤ a ∧ a < memSize := ⟨h0, h1⟩
  exact ⟨back (.hlt a) ha, back (.jeq a) ha, back (.jgt a) ha, back (.jlt a) ha, back (.jmp a) ha,
    back (.jle a) ha, back (.jne a) ha, back (.lac a) ha, back (.pac a) ha, back (.lmq a) ha, back (.pmq a) ha,
    back (.add a) ha, back (.sub a) ha, back (.mul a) ha, back (.div a) ha, back (.get a) ha, back (.put a) ha⟩

/-! ### The verdicts -/

/-- Settles O12: a word of this range splits into quotient and remainder, and its remainder is no negative target. -/
theorem everyNonnegativeWordIsClassified : Obligations.EveryNonnegativeWordIsClassified := by
  intro nw w h0 _
  have hrem : 0 ≤ w % 1000 := Int.emod_nonneg w (by decide)
  have htgt : (w % 1000 < 0 ∨ 50 ≤ w % 1000) ↔ 50 ≤ w % 1000 := by omega
  have hlow : w % 1000 ≤ 49 ↔ ¬ 50 ≤ w % 1000 := by omega
  simp only [decodeWord_verdict, splitWord_nonneg nw h0, opDiv, htgt, hlow]
  by_cases ho : w / 1000 ∈ assignedOpcodes
  · by_cases ht : 50 ≤ w % 1000 <;> simp [ho, ht]
  · simp [ho]

/-- Settles O17: an address inside memory is judged by its word, one outside by R68. -/
theorem decoderTestsAreOrdered : Obligations.DecoderTestsAreOrdered := by
  intro s a
  by_cases ha : a < 0 ∨ 50 ≤ a
  · rw [decodeAt_outside s ha, if_pos ha]
  · have hin : 0 ≤ a ∧ a < 50 := by omega
    rw [decodeAt_inside s hin.1 hin.2, if_neg ha, decodeWord_verdict]

/-- Settles O16: the query answers what `decodeAt` gives, in the same state. -/
theorem decodeAtAnAddress : Obligations.DecodeAtAnAddress := by
  intro s a
  refine ⟨fun ha => ?_, fun h0 h1 => ?_⟩
  · rw [handle, decodeAt_outside s ha]
  · rw [handle, decodeAt_inside s h0 h1]

/-- A decode that fails names one of the two decode errors (R180). -/
theorem decodeAt_failure {s : State} {a : Int} (h : (s.decodeAt a).2 ≠ .runnable) :
    (s.decodeAt a).2 = .invalidInstruction ∨ (s.decodeAt a).2 = .invalidAddress := by
  rw [decoderTestsAreOrdered] at h ⊢
  split_ifs at h ⊢ <;> simp at h ⊢

/-! ### The Step that fetches such a word -/

/-- The Step that fetches a word the decoder rejects changes CPUSTATE alone (R82). -/
theorem step_of_fetched_failure {s : State} {d : Decoded} {v : CpuState} (hc : s.cpu = .runnable)
    (hd : s.decodeAt s.pc = (d, v)) (hv : v ≠ .runnable) : step s = .next { s with cpu := v } := by
  rw [step_of_decode_failure hc (by rwa [hd]), hd, State.stop]

/-- Settles O13: none of these words has an assigned quotient. -/
theorem unassignedOpcodesStopTheMachine : Obligations.UnassignedOpcodesStopTheMachine := by
  intro s w hc h0 h1 hw hrange
  have hopcode : (splitWord s.config.negWord w).1 ∉ assignedOpcodes := by
    rw [splitWord_nonneg _ (by omega)]
    simp only [opDiv, List.mem_cons, List.not_mem_nil, or_false]
    omega
  have hd := decodeAt_inside s h0 h1
  rw [hw, decodeWord_unassigned hopcode] at hd
  exact step_of_fetched_failure hc hd (by simp)

/-- Settles O14: the opcode and the target are those of one instruction, and its target alone decides the verdict. -/
theorem outOfRangeTargetIsInvalidAddress : Obligations.OutOfRangeTargetIsInvalidAddress := by
  refine ⟨fun s opc tgt hopc hc h0 h1 hsplit => ?_, fun nw w hlow hhigh => ?_⟩
  · obtain ⟨i, rfl, rfl⟩ := exists_instr_of_assigned hopc tgt
    have hd := (decodeAt_inside s h0 h1).trans (decodeWord_of_split hsplit)
    refine ⟨fun ht => ?_, fun hlow hhigh => ?_⟩
    · rw [if_pos ht] at hd
      exact ⟨⟨i, hd, rfl, rfl⟩, step_of_fetched_failure hc hd (by simp)⟩
    · rw [if_neg (by omega)] at hd
      exact ⟨i, hd, rfl, rfl⟩
  · have hsplit : splitWord nw w = ((Instr.hlt w).opcode, (Instr.hlt w).target) := by
      simpa [Instr.opcode, Instr.target] using
        splitWord_compose nw le_rfl (by omega : 0 ≤ w) (by simp only [opDiv]; omega)
    rw [decodeWord_of_split hsplit, if_pos (.inr hlow)]

/-! ### Negative words and NEGWORD -/

/-- A word that runs is an encoding, and encodings are not negative (R65). -/
theorem decodeWord_of_neg (nw : NegWord) {w : Int} (h : w < 0) : (decodeWord nw w).2 ≠ .runnable := by
  intro hv
  obtain ⟨i, -, ⟨hlow, -⟩, rfl⟩ := everyRunnableWordIsAnEncoding nw w _ (Prod.ext rfl hv)
  have := opcode_nonneg i
  simp only [encode, opDiv] at h
  omega

theorem decodeAt_of_neg {s : State} {a : Int} (h0 : 0 ≤ a) (h1 : a < 50) (h : s.mem.read a.toNat < 0) :
    (s.decodeAt a).2 ≠ .runnable := by
  rw [decodeAt_inside s h0 h1]
  exact decodeWord_of_neg _ h

/-- Settles O15: under trunc a small negative word is HLT with itself as target; every other split of a negative word
has a negative opcode. -/
theorem negativeWordsNeverRun : Obligations.NegativeWordsNeverRun := by
  have unassigned {o : Int} (h : o < 0) : o ∉ assignedOpcodes := fun ho => (nonneg_of_assigned ho).not_gt h
  refine ⟨fun w hlow hhigh => ?_, fun w hw => ?_, fun w hw => ?_, fun s hc h0 h1 hneg => ?_⟩
  · have hsplit : splitWord .trunc w = ((Instr.hlt w).opcode, (Instr.hlt w).target) := by
      rw [splitWord_trunc_of_neg (by omega)]
      simp only [opDiv, Instr.opcode, Instr.target, Prod.mk.injEq]
      omega
    rw [decodeWord_of_split hsplit, if_pos (.inl (show w < 0 by omega))]
  · have hsplit := splitWord_trunc_of_neg (show w < 0 by omega)
    refine ⟨_, decodeWord_unassigned (unassigned ?_), ?_⟩ <;> simp only [hsplit, opDiv] <;> omega
  · refine ⟨_, decodeWord_unassigned (unassigned ?_), ?_⟩ <;> simp only [splitWord_floor, opDiv] <;> omega
  · have hv := decodeAt_of_neg h0 h1 hneg
    exact ⟨_, decodeAt_failure hv, step_of_decode_failure hc hv⟩

/-- `s` with the other parameter NEGWORD. -/
def State.withNegWord (s : State) (nw : NegWord) : State :=
  { s with config := { s.config with negWord := nw } }

theorem jumpIf_withNegWord (c : Bool) (t : Int) (s : State) (nw : NegWord) :
    jumpIf c t (s.withNegWord nw) = (jumpIf c t s).withNegWord nw := by
  cases c <;> rfl

theorem effect_withNegWord (i : Instr) (s : State) (nw : NegWord) :
    effect i (s.withNegWord nw) = (effect i s).withNegWord nw := by
  cases i with
  | hlt | lac | pac | lmq | pmq | add | sub | mul | put => rfl
  | jeq t | jgt t | jlt t | jmp t | jle t | jne t => exact jumpIf_withNegWord _ t s nw
  | div t =>
    rcases effect_div_cases t s with ⟨hz, e⟩ | ⟨hz, e⟩ <;> rw [e]
    · exact if_pos hz
    · exact if_neg hz
  | get t =>
    rcases effect_get_cases t s with ⟨hin, e⟩ | ⟨v, rest, hin, e⟩ <;> rw [e]
    · exact effect_get_nil (s := s.withNegWord nw) hin t
    · exact effect_get_cons (s := s.withNegWord nw) hin t

theorem enter_withNegWord (i : Instr) (s : State) (nw : NegWord) :
    (s.withNegWord nw).enter i = (s.enter i).withNegWord nw := by
  rw [enter_eq, enter_eq]
  rfl

theorem awaitsInput_withNegWord (i : Instr) (s : State) (nw : NegWord) :
    (s.withNegWord nw).awaitsInput i = s.awaitsInput i := rfl

/-- The decoder reads NEGWORD only for a negative word. -/
theorem decodeAt_withNegWord {s : State} {a : Int} (h : a < 0 ∨ 50 ≤ a ∨ 0 ≤ s.mem.read a.toNat)
    (nw : NegWord) :
    (s.withNegWord nw).decodeAt a = s.decodeAt a := by
  by_cases ha : a < 0 ∨ 50 ≤ a
  · rw [decodeAt_outside _ ha, decodeAt_outside _ ha]
  · have hin : 0 ≤ a ∧ a < 50 := by omega
    have hword : 0 ≤ s.mem.read a.toNat := by omega
    rw [decodeAt_inside _ hin.1 hin.2, decodeAt_inside _ hin.1 hin.2]
    simp only [decodeWord, splitWord_nonneg _ hword, State.withNegWord]

/-- Machines that decode alike at PC and differ only in NEGWORD take the same Step. -/
theorem step_withNegWord {s s' : State} {nw : NegWord} (hs : step s = .next s')
    (hdec : (s.withNegWord nw).decodeAt s.pc = s.decodeAt s.pc) :
    step (s.withNegWord nw) = .next (s'.withNegWord nw) := by
  have hc : (s.withNegWord nw).cpu = .runnable := (step_cases hs).1
  rcases step_next_cases hs with ⟨hv, rfl⟩ | ⟨i, hd, hw, rfl⟩ | ⟨i, hd, hw, rfl⟩
  · rw [step_of_decode_failure hc (by rwa [← hdec] at hv)]
    exact congrArg (fun r => Host.Outcome.next ((s.withNegWord nw).stop r.2)) hdec
  · exact step_of_waiting hc (hdec.trans hd) ((awaitsInput_withNegWord i s' nw).trans hw)
  · rw [step_eq_effect hc (hdec.trans hd) ((awaitsInput_withNegWord i s nw).trans hw), enter_withNegWord,
      effect_withNegWord]

/-- Settles O35: away from negative words the decoder ignores NEGWORD; at one both decodes fail. -/
theorem negWordMattersOnlyForNegativeWords : Obligations.NegWordMattersOnlyForNegativeWords := by
  intro s s' nw hs
  refine ⟨fun h => step_withNegWord hs (decodeAt_withNegWord h nw), fun ⟨h0, h1, hneg⟩ => ?_⟩
  have hc := (step_cases hs).1
  have hv : ((s.withNegWord nw).decodeAt s.pc).2 ≠ .runnable := decodeAt_of_neg h0 h1 hneg
  rw [step_next_of_decode_failure hs (decodeAt_of_neg h0 h1 hneg)]
  exact ⟨_, hv, step_of_decode_failure (s := s.withNegWord nw) hc hv⟩

end Sys2Proof.Machine
end

section
/-! PROOFS for 40_cycle_and_halt.md: what reaches dispatch, the Step on a decoded and on an encoded instruction, the
Steps that stop or do not exist, and the run loop. -/

namespace Sys2Proof.Machine

/-! ### What reaches dispatch -/

/-- Settles O18: what decodes as runnable is one of the 17 operations, with its target in memory. -/
theorem unknownNeverReachesDispatch : Obligations.UnknownNeverReachesDispatch := by
  intro s a
  refine ⟨fun x h => ?_, fun i h => wellFormed_of_decodeAt h⟩
  obtain ⟨-, -, i, hi, -⟩ := decodeAt_runnable h
  cases hi

/-! ### A Step that runs an instruction -/

/-- Settles O20: entering the operation is the PC advance and the trace report. -/
theorem stepRunsTheDecodedInstruction : Obligations.StepRunsTheDecodedInstruction := by
  intro s i hc hd hget
  rw [step_of_decoded hc hd (awaitsInput_eq_false.2 hget), enter_eq]

/-- An address that holds the encoding of a well-formed instruction decodes to that instruction. -/
theorem decodeAt_of_encoding {s : State} {a : Int} {i : Instr} (h0 : 0 ≤ a) (h1 : a < 50) (hi : i.wellFormed)
    (hword : s.mem.read a.toNat = encode i) : s.decodeAt a = (.known i, .runnable) := by
  rw [decodeAt_inside s h0 h1, hword, decodingAnEncodingGivesItBack _ i hi]

/-- Settles O21: the encoded instruction is what the word at PC decodes to. -/
theorem stepRunsTheEncodedInstruction : Obligations.StepRunsTheEncodedInstruction := by
  intro s i hc h0 h1 hi hword hget
  exact stepRunsTheDecodedInstruction s i hc (decodeAt_of_encoding h0 h1 hi hword) hget

/-- The word of a HLT is its target, the opcode being 0 (30_encoding.md R62). -/
theorem encode_hlt (t : Int) : encode (.hlt t) = t := by simp [encode, Instr.opcode, Instr.target]

/-- Settles O36: a word from 0 to 49 is the encoding of a HLT, and its operation is the stop alone. -/
theorem hltHalts : Obligations.HltHalts := by
  refine ⟨fun t s => ⟨by rw [encode_hlt, zero_add], rfl⟩, fun t s ht0 ht1 hc h0 h1 hword => ?_⟩
  have hi : (Instr.hlt t).wellFormed := ⟨ht0, Int.lt_add_one_of_le ht1⟩
  exact ⟨_, stepRunsTheEncodedInstruction s (.hlt t) hc h0 h1 hi (hword.trans (encode_hlt t).symm) (by simp),
    rfl, rfl, rfl, rfl, rfl⟩

/-! ### A Step whose decode fails, and the states that have or have no Step -/

/-- Settles O22: the verdict of a failed decode is one of the two decode errors, and the Step only takes it over. -/
theorem decodeFailureChangesOnlyStatus : Obligations.DecodeFailureChangesOnlyStatus := by
  intro s d v hc hd hv
  have verdict := decodeAt_failure (s := s) (a := s.pc)
  rw [hd] at verdict
  exact ⟨verdict hv, step_of_fetched_failure hc hd hv⟩

/-- Settles O26: each of the three ways a Step can go ends in a next state. -/
theorem everyRunnableStepAnswersNext : Obligations.EveryRunnableStepAnswersNext := by
  intro s hc
  rcases fetch_cases s with hv | ⟨i, hd, hw⟩ | ⟨i, hd, hw⟩
  · exact ⟨_, step_of_decode_failure hc hv⟩
  · exact ⟨_, step_of_waiting hc hd hw⟩
  · exact ⟨_, step_eq_effect hc hd hw⟩

/-- Settles O27: a Step looks at CPUSTATE first. -/
theorem terminalStateHasNoStep : Obligations.TerminalStateHasNoStep := fun _ => step_of_terminal

/-! ### The run loop -/

theorem runLoop_of_terminal {s : State} (h : s.cpu ≠ .runnable) (n : Nat) : runLoop n s = .next s := by
  cases n with
  | zero => rfl
  | succ n =>
    cases hc : s.cpu with
    | runnable => exact absurd hc h
    | halted | invalidInstruction | invalidAddress | divideByZero => simp only [runLoop, hc]

theorem runLoop_succ_of_step {s s' : State} (hs : step s = .next s') (n : Nat) :
    runLoop (n + 1) s = runLoop n s' := by
  simp only [runLoop, (step_cases hs).1, hs]

/-- One round of the loop: nothing in a terminal state, else one Step (40_cycle_and_halt.md R89). -/
theorem runLoop_round (s : State) :
    (s.cpu ≠ .runnable ∧ ∀ n, runLoop n s = .next s) ∨
    ∃ s', step s = .next s' ∧ ∀ n, runLoop (n + 1) s = runLoop n s' := by
  by_cases hc : s.cpu = .runnable
  · obtain ⟨s', hs⟩ := everyRunnableStepAnswersNext s hc
    exact .inr ⟨s', hs, runLoop_succ_of_step hs⟩
  · exact .inl ⟨hc, runLoop_of_terminal hc⟩

theorem runLoop_answers_next (n : Nat) (s : State) : ∃ s', runLoop n s = .next s' := by
  induction n generalizing s with
  | zero => exact ⟨s, rfl⟩
  | succ n ih =>
    rcases runLoop_round s with ⟨-, hstay⟩ | ⟨t, -, hround⟩
    · exact ⟨s, hstay _⟩
    · rw [hround]
      exact ih t

/-- A run goes on from where its first part ended. -/
theorem runLoop_add {n : Nat} {s s' : State} (h : runLoop n s = .next s') (m : Nat) :
    runLoop (n + m) s = runLoop m s' := by
  induction n generalizing s with
  | zero =>
    cases h
    rw [zero_add]
  | succ n ih =>
    rcases runLoop_round s with ⟨-, hstay⟩ | ⟨t, -, hround⟩
    · rw [hstay] at h
      cases h
      rw [hstay, hstay]
    · rw [hround] at h
      rw [Nat.add_right_comm, hround, ih h]

/-- Settles O55: no Step of the loop fails, and the rounds after a terminal state leave it as it is. -/
theorem runLoopEndsAtTheFirstTerminalState : Obligations.RunLoopEndsAtTheFirstTerminalState := by
  refine ⟨runLoop_answers_next, fun n s hc => runLoop_of_terminal hc n,
    fun n s s' _ hs => runLoop_succ_of_step hs n, fun n m s s' h hc => ?_⟩
  rw [runLoop_add h, runLoop_of_terminal hc]

end Sys2Proof.Machine
end

section
/-! PROOFS for 41_jumps.md: the jump rule as one update of PC, and the six jumps. -/

namespace Sys2Proof.Machine

/-- The jump rule (R100) as one update: the condition chooses PC, and no other field changes. -/
theorem jumpIf_decide (p : Prop) [Decidable p] (t : Int) (s : State) :
    jumpIf (decide p) t s = { s with pc := if p then t else s.pc } := by
  by_cases hp : p
  · simp only [jumpIf, hp, decide_true, if_true, State.setPc]
  · simp only [jumpIf, hp, decide_false, Bool.false_eq_true, if_false]

/-- An operation that answers the jump rule's state under the condition `p` completes with that update of PC. -/
theorem exec_of_jumpIf {i : Instr} {p : Prop} [Decidable p] {t : Int} {s : State}
    (h : exec i s = .next (jumpIf (decide p) t s)) : exec i s = .next { s with pc := if p then t else s.pc } := by
  rw [h, jumpIf_decide]

/-- Settles O37: each jump's word is its opcode from the table times 1000, plus its target, and each operation is the
jump rule under its own condition on AC; JMP's always holds. -/
theorem jumpsFollowTheirConditions : Obligations.JumpsFollowTheirConditions := by
  intro t s
  refine ⟨⟨?jeq, exec_of_jumpIf rfl⟩, ⟨?jgt, exec_of_jumpIf rfl⟩, ⟨?jlt, exec_of_jumpIf rfl⟩, ⟨?jmp, rfl⟩,
    ⟨?jle, exec_of_jumpIf rfl⟩, ⟨?jne, exec_of_jumpIf rfl⟩⟩
  all_goals simp [encode, Instr.opcode, Instr.target, opDiv]

end Sys2Proof.Machine
end

section
/-! PROOFS for 42_load_store.md: the effective address, what a store to it leaves in memory, the loads and the stores. -/

namespace Sys2Proof.Machine

/-- Settles O19: the address function is defined by this range check alone. -/
theorem effectiveAddressIsTheTarget : Obligations.EffectiveAddressIsTheTarget :=
  fun _ => ⟨fun _ => cellOf_eq_some, cellOf_eq_none⟩

/-- Settles O38: each load reads its operand, which is the word of its target, and copies it into one register; each
word is the opcode from the table times 1000, plus the target. -/
theorem loadsCopyTheMemoryWord : Obligations.LoadsCopyTheMemoryWord := by
  intro t s h0 h1
  have reads := readOperand_some (cellOf_of_range h0 h1) s
  exact ⟨⟨rfl, reads s.setAc⟩, ⟨rfl, reads s.setMq⟩⟩

/-- A store to an operand that names a word completes, with the value in that word, every other word as it was, and
memory the only field that changes (20_memory.md R45). -/
theorem writeOperand_completes {t : Int} {a : Nat} (h : cellOf t = some a) (v : Int) (s : State) :
    ∃ s', writeOperand t v s = .next s' ∧ s'.mem.read a = v ∧
      (∀ b, b ≠ a → s'.mem.read b = s.mem.read b) ∧ s' = { s with mem := s'.mem } := by
  refine ⟨_, writeOperand_some h v s, ?stored, fun b hb => ?others, rfl⟩
  case stored => rw [setMem_mem, read_write, if_pos rfl]
  case others => rw [setMem_mem, read_write, if_neg hb]

/-- Settles O39: each store writes its own register to its operand; each word is the opcode from the table times 1000,
plus the target. -/
theorem storesCopyTheRegister : Obligations.StoresCopyTheRegister := by
  intro t a s ha
  have stores (v : Int) := writeOperand_completes ha v s
  exact ⟨rfl, rfl, stores s.ac, stores s.mq⟩

end Sys2Proof.Machine
end

section
/-! PROOFS for 43_arithmetic.md: clamp, the three saturating operations, and DIV with the laws of its two results. -/

namespace Sys2Proof.Machine

/-! ### clamp -/

/-- Saturation (R120) as the nearest value between the two bounds. -/
theorem clamp_eq_max_min (x : Int) : clamp x = max (-99999) (min 99999 x) := by
  simp only [clamp, vMax, vMin]
  split_ifs <;> omega

/-- Settles O40: in range clamp is the identity, and the other laws are those of the nearest value. -/
theorem clampSaturates : Obligations.ClampSaturates := by
  refine ⟨fun x => ⟨fun hx => ?above, fun hx => ?below, fun low high => clamp_of_inRange ⟨low, high⟩⟩,
    fun x => ?laws, fun x y hxy => ?monotone⟩
  case above => rw [clamp_eq_max_min]; omega
  case below => rw [clamp_eq_max_min]; omega
  case laws =>
    have bounds : inRange (clamp x) := clamp_inRange x
    refine ⟨clamp_of_inRange bounds, bounds.1, bounds.2, ?odd, ?top, ?bottom⟩
    case odd => simp only [clamp_eq_max_min]; omega
    case top => rw [clamp_eq_max_min]; omega
    case bottom => rw [clamp_eq_max_min]; omega
  case monotone =>
    simp only [clamp_eq_max_min]
    exact max_le_max_left _ (min_le_min_left _ hxy)

/-! ### ADD, SUB and MUL -/

/-- Settles O41: each operation completes with the clamp of its exact result in AC; each word is the opcode from the
table times 1000, plus the target. -/
theorem addAndSubSaturateIntoAc : Obligations.AddAndSubSaturateIntoAc := by
  intro t s h0 h1
  simp only [← clamp_eq_max_min]
  exact ⟨rfl, rfl, exec_eq_effect (i := .add t) ⟨h0, h1⟩ s, exec_eq_effect (i := .sub t) ⟨h0, h1⟩ s⟩

/-- Settles O42: the operation completes with the clamp of the exact product in MQ. -/
theorem mulSaturatesIntoMq : Obligations.MulSaturatesIntoMq := by
  intro t s h0 h1
  rw [← clamp_eq_max_min]
  exact ⟨rfl, exec_eq_effect (i := .mul t) ⟨h0, h1⟩ s⟩

/-! ### DIV -/

theorem exec_div_of_ne_zero {t : Int} {s : State} (h0 : 0 ≤ t) (h1 : t < 50) (hm : s.mem.read t.toNat ≠ 0) :
    exec (.div t) s = .next (divide (s.mem.read t.toNat) s) := by
  rw [exec_eq_effect (i := .div t) ⟨h0, h1⟩ s, effect, if_neg hm]

theorem exec_div_of_zero {t : Int} {s : State} (h0 : 0 ≤ t) (h1 : t < 50) (hm : s.mem.read t.toNat = 0) :
    exec (.div t) s = .next (s.stop .divideByZero) := by
  rw [exec_eq_effect (i := .div t) ⟨h0, h1⟩ s, effect, if_pos hm]

/-- Settles O43: the divisor is tested against zero first; then both results are written, or the status alone. -/
theorem divLeavesQuotientAndRemainder : Obligations.DivLeavesQuotientAndRemainder :=
  fun _ _ h0 h1 => ⟨rfl, exec_div_of_ne_zero h0 h1, exec_div_of_zero h0 h1⟩

/-! ### The laws of truncated division -/

/-- The range of a word is symmetric, so it bounds the absolute value (00_scope.md R4). -/
theorem inRange_iff_abs_le {w : Int} : inRange w ↔ |w| ≤ vMax := abs_le.symm

theorem abs_tdiv_le_abs (a m : Int) : |a.tdiv m| ≤ |a| := by
  simpa only [Int.natCast_natAbs] using Int.ofNat_le.2 (Int.natAbs_tdiv_le_natAbs a m)

theorem abs_tmod_lt_abs (a : Int) {m : Int} (hm : m ≠ 0) : |a.tmod m| < |m| := by
  have smaller : (a.tmod m).natAbs < m.natAbs :=
    Int.natAbs_tmod a m ▸ Nat.mod_lt _ (Int.natAbs_pos.2 hm)
  simpa only [Int.natCast_natAbs] using Int.ofNat_lt.2 smaller

/-- The remainder is zero, where the divisor divides the dividend, or of the dividend's sign (00_scope.md R6). -/
theorem tmod_zero_or_pos_iff (a m : Int) : a.tmod m = 0 ∨ (0 < a.tmod m ↔ 0 < a) := by
  by_cases hdvd : m ∣ a
  · exact .inl (Int.tmod_eq_zero_of_dvd hdvd)
  · right
    rw [← Int.sign_eq_one_iff_pos, Int.sign_tmod, if_neg hdvd, Int.sign_eq_one_iff_pos]

/-- Settles O44: a nonzero divisor leaves the two results of truncated division. The quotient is no larger than the old
MQ and the remainder smaller than the divisor, so operands in range keep both in range. -/
theorem divisionIdentityHolds : Obligations.DivisionIdentityHolds := by
  intro t s s' h0 h1 hm hs
  rw [exec_div_of_ne_zero h0 h1 hm] at hs
  cases hs
  rw [divide_mq, divide_ac]
  have quotient := abs_tdiv_le_abs s.mq (s.mem.read t.toNat)
  have remainder := abs_tmod_lt_abs s.mq hm
  refine ⟨(Int.tdiv_mul_add_tmod _ _).symm, remainder, tmod_zero_or_pos_iff _ _, quotient, ?ranges⟩
  simp only [inRange_iff_abs_le]
  exact fun dividend divisor => ⟨quotient.trans dividend, remainder.le.trans divisor⟩

end Sys2Proof.Machine
end

section
/-! PROOFS for 44_io.md: GET with a value supplied, GET that waits for one, and PUT. -/

namespace Sys2Proof.Machine

/-! ### PUT -/

/-- Settles O47: the operation is one read of its operand, which is the word of its target, delivered as it stands;
the instruction's word is the opcode from the table times 1000, plus the target. -/
theorem putDeliversTheMemoryWord : Obligations.PutDeliversTheMemoryWord :=
  fun _ s h0 h1 => ⟨rfl, readOperand_some (cellOf_of_range h0 h1) s _⟩

/-! ### GET with a value supplied -/

/-- Settles O45: once the oldest value is taken and recorded, the operation is a store of its clamp to the operand. -/
theorem getStoresTheClampedInput : Obligations.GetStoresTheClampedInput := by
  intro t a v rest s ha hin
  obtain ⟨s', stores, stored, others, frame⟩ :=
    writeOperand_completes ha (clamp v) ((s.setInput rest).emit (.input v))
  exact ⟨rfl, s', (execGet_cons hin t).trans stores, stored.trans (clamp_eq_max_min v), others, frame⟩

/-! ### GET that waits -/

/-- The Step at a GET for which a value has been supplied (44_io.md R140 within 40_cycle_and_halt.md R81). -/
theorem step_of_get_supplied {s : State} {t v : Int} {rest : List Int} (hc : s.cpu = .runnable)
    (hd : s.decodeAt s.pc = (.known (.get t), .runnable)) (hin : s.input = v :: rest) :
    step s = .next ((((s.enter (.get t)).setInput rest).emit (.input v)).setMem (s.mem.write t.toNat (clamp v))) := by
  rw [step_eq_effect hc hd (awaitsInput_get_cons hin t), effect_get_cons ((enter_input s _).trans hin), enter_mem]

/-- Settles O46: with no value the Step waits; the supplied value is then the only one waiting, the same GET still
stands at PC, and its Step completes. -/
theorem getWaitsForInput : Obligations.GetWaitsForInput := by
  intro t s hc hd hin
  refine ⟨step_of_waiting hc hd (awaitsInput_eq_true.2 ⟨⟨t, rfl⟩, hin⟩), fun v => ?supplied⟩
  have waiting : (s.setInput (s.input ++ [v])).input = [v] := by rw [setInput_input, hin, List.nil_append]
  refine ⟨_, _, rfl, step_of_get_supplied hc hd waiting, ?pc, ?stored, rfl⟩
  case pc => rw [setMem_pc, emit_pc, setInput_pc, enter_pc, setInput_pc]
  case stored => rw [setMem_mem, read_write, if_pos rfl]

end Sys2Proof.Machine
end

section
/-! PROOFS for 45_program_loader.md: the line grammar, and the three ways a load can go (all lines good, a first
failure, any text). -/

namespace Sys2Proof.Machine

/-! ### The scanners of the line grammar

Each scanner takes its token whole when what follows cannot continue the token, and what it takes is such a token. -/

theorem isDigit_of_isBlank {c : Char} (h : isBlank c = true) : isDigit c = false := by
  simp only [isBlank, isDigit, decide_eq_true_eq, decide_eq_false_iff_not] at h ⊢
  omega

theorem isBlank_of_isDigit {c : Char} (h : isDigit c = true) : isBlank c = false :=
  Bool.eq_false_iff.2 fun hb => Bool.eq_false_iff.1 (isDigit_of_isBlank hb) h

theorem takeDigits_eq (line : List Char) :
    takeDigits line = (line.takeWhile isDigit, line.dropWhile isDigit) := by
  induction line with
  | nil => rfl
  | cons c cs ih => by_cases hc : isDigit c = true <;> simp [takeDigits, hc, ih]

theorem dropBlanks_eq (line : List Char) : dropBlanks line = line.dropWhile isBlank := by
  induction line with
  | nil => rfl
  | cons c cs ih => by_cases hc : isBlank c = true <;> simp [dropBlanks, hc, ih]

/-- The longest run of characters of one class ends where a character outside the class begins the rest. -/
theorem longest_run_append {p : Char → Bool} {token rest : List Char} (htoken : ∀ c ∈ token, p c = true)
    (hrest : ∀ c ∈ rest.head?, p c = false) :
    (token ++ rest).takeWhile p = token ∧ (token ++ rest).dropWhile p = rest := by
  rw [List.takeWhile_append_of_pos htoken, List.dropWhile_append_of_pos htoken]
  cases rest with
  | nil => simp
  | cons c cs => simp [hrest c rfl]

theorem takeDigits_append {ds rest : List Char} (hds : ∀ c ∈ ds, isDigit c = true)
    (hrest : ∀ c ∈ rest.head?, isDigit c = false) : takeDigits (ds ++ rest) = (ds, rest) := by
  obtain ⟨htaken, hafter⟩ := longest_run_append hds hrest
  rw [takeDigits_eq, htaken, hafter]

theorem takeDigits_split {line ds rest : List Char} (h : takeDigits line = (ds, rest)) :
    line = ds ++ rest ∧ ∀ c ∈ ds, isDigit c = true := by
  rw [takeDigits_eq] at h
  cases h
  exact ⟨List.takeWhile_append_dropWhile.symm, fun _ => List.mem_takeWhile_imp⟩

theorem dropBlanks_append {ws rest : List Char} (hws : ∀ c ∈ ws, isBlank c = true)
    (hrest : ∀ c ∈ rest.head?, isBlank c = false) : dropBlanks (ws ++ rest) = rest :=
  (dropBlanks_eq _).trans (longest_run_append hws hrest).2

theorem dropBlanks_split (line : List Char) :
    ∃ ws, line = ws ++ dropBlanks line ∧ ∀ c ∈ ws, isBlank c = true := by
  rw [dropBlanks_eq]
  exact ⟨_, List.takeWhile_append_dropWhile.symm, fun _ => List.mem_takeWhile_imp⟩

/-- The text of the optional minus sign (45_program_loader.md R154). -/
def signToken (minus : Bool) : List Char := if minus then ['-'] else []

theorem signToken_or (minus : Bool) : signToken minus = [] ∨ signToken minus = ['-'] := by
  cases minus <;> simp [signToken]

theorem exists_signToken {sign : List Char} (h : sign = [] ∨ sign = ['-']) : ∃ minus, sign = signToken minus := by
  obtain rfl | rfl := h
  · exact ⟨false, rfl⟩
  · exact ⟨true, rfl⟩

theorem takeSign_append (minus : Bool) {rest : List Char} (hrest : ∀ c ∈ rest.head?, c ≠ '-') :
    takeSign (signToken minus ++ rest) = (minus, rest) := by
  cases minus with
  | true => rfl
  | false =>
    cases rest with
    | nil => rfl
    | cons c cs => simp [signToken, takeSign, hrest c rfl]

theorem takeSign_split {line rest : List Char} {minus : Bool} (h : takeSign line = (minus, rest)) :
    line = signToken minus ++ rest := by
  cases line with
  | nil => cases h; rfl
  | cons c cs =>
    rw [takeSign] at h
    by_cases hc : c = '-'
    · rw [if_pos hc] at h
      cases h
      exact congrArg (· :: _) hc
    · rw [if_neg hc] at h
      cases h
      rfl

theorem isTail_iff {tail : List Char} : isTail tail = true ↔ tail = [] ∨ ∃ text, tail = '/' :: '/' :: text := by
  match tail with
  | [] => simp [isTail]
  | [c] => simp [isTail]
  | c :: d :: cs => simp [isTail]

theorem convertValue_eq (minus : Bool) (ds : List Char) :
    convertValue minus ds = some (if signToken minus = [] then (decimal ds : Int) else -(decimal ds : Int)) := by
  cases minus <;> rfl

/-! ### The line parser -/

/-- The scanners, run one after the other, cover the line: an address and a colon, then a value with or without a
minus sign, then a tail (45_program_loader.md R152). -/
def Scans (line addr : List Char) (minus : Bool) (val : List Char) : Prop :=
  ∃ afterColon digits afterValue,
    takeDigits line = (addr, ':' :: afterColon) ∧ addr ≠ [] ∧
    takeSign (dropBlanks afterColon) = (minus, digits) ∧
    takeDigits digits = (val, afterValue) ∧ val ≠ [] ∧
    isTail (dropBlanks afterValue) = true

theorem parseLine_of_scans {line addr val : List Char} {minus : Bool} (h : Scans line addr minus val) :
    parseLine line = .assign (decimal addr) (convertValue minus val) := by
  obtain ⟨_, _, _, haddr, ha, hsign, hval, hv, htail⟩ := h
  obtain ⟨_, _, rfl⟩ := List.exists_cons_of_ne_nil ha
  obtain ⟨_, _, rfl⟩ := List.exists_cons_of_ne_nil hv
  simp only [parseLine, haddr, hsign, hval, htail, if_true]

/-- The parser rejects a line unless its scanners cover it. -/
theorem parseLine_cases (line : List Char) :
    parseLine line = .noMatch ∨ ∃ addr minus val, Scans line addr minus val := by
  unfold parseLine
  split
  next addr afterAddr haddr =>
  split
  · split
    next minus digits hsign =>
    split
    next val afterValue hval =>
    split
    · exact .inl rfl
    · split
      · exact .inr ⟨_, _, _, _, _, _, haddr, List.cons_ne_nil _ _, hsign, hval, List.cons_ne_nil _ _, ‹_›⟩
      · exact .inl rfl
  · exact .inl rfl

theorem lineFits_of_scans {line addr val : List Char} {minus : Bool} {v : Int} (h : Scans line addr minus val)
    (hv : convertValue minus val = some v) : LineFits line (decimal addr) v := by
  obtain ⟨afterColon, digits, afterValue, haddr, ha, hsign, hval, hne, htail⟩ := h
  obtain ⟨hline, haddr⟩ := takeDigits_split haddr
  obtain ⟨ws1, hafterColon, hws1⟩ := dropBlanks_split afterColon
  obtain ⟨hdigits, hval⟩ := takeDigits_split hval
  obtain ⟨ws2, hafterValue, hws2⟩ := dropBlanks_split afterValue
  refine ⟨addr, ws1, signToken minus, val, ws2, dropBlanks afterValue, ?covers, ha, haddr, hws1, signToken_or minus,
    hne, hval, hws2, isTail_iff.1 htail, rfl, ?value⟩
  case covers => rw [← hafterValue, ← hdigits, ← takeSign_split hsign, ← hafterColon, hline]
  case value => rw [convertValue_eq] at hv; exact (Option.some.inj hv).symm

theorem scans_of_lineFits {line : List Char} {a : Nat} {v : Int} (h : LineFits line a v) :
    ∃ addr minus val, Scans line addr minus val ∧ decimal addr = a ∧ convertValue minus val = some v := by
  obtain ⟨addr, ws1, sign, val, ws2, tail, rfl, ha, haddr, hws1, hsign, hv, hval, hws2, htail, rfl, rfl⟩ := h
  obtain ⟨minus, rfl⟩ := exists_signToken hsign
  refine ⟨addr, minus, val, ⟨_, val ++ (ws2 ++ tail), ws2 ++ tail, takeDigits_append haddr ?colon, ha, ?sign,
    takeDigits_append hval ?afterValue, hv, ?tail⟩, rfl, convertValue_eq minus val⟩
  case colon => simp [isDigit]
  case sign =>
    obtain ⟨d, ds, rfl⟩ := List.exists_cons_of_ne_nil hv
    have hd : isDigit d = true := hval d List.mem_cons_self
    have hminus : d ≠ '-' := by
      rintro rfl
      simp [isDigit] at hd
    rw [dropBlanks_append hws1, takeSign_append]
    · simpa using hminus
    · cases minus with
      | true => simp [signToken, isBlank]
      | false => simp [signToken, isBlank_of_isDigit hd]
  case afterValue =>
    cases ws2 with
    | nil => obtain rfl | ⟨text, rfl⟩ := htail <;> simp [isDigit]
    | cons w ws => simp [isDigit_of_isBlank (hws2 w List.mem_cons_self)]
  case tail =>
    rw [dropBlanks_append hws2, isTail_iff]
    · exact htail
    · obtain rfl | ⟨text, rfl⟩ := htail <;> simp [isBlank]

theorem parseLine_of_lineFits {line : List Char} {a : Nat} {v : Int} (h : LineFits line a v) :
    parseLine line = .assign a (some v) := by
  obtain ⟨addr, minus, val, hscans, rfl, hv⟩ := scans_of_lineFits h
  rw [parseLine_of_scans hscans, hv]

theorem parseLine_noMatch_or_lineFits (line : List Char) :
    parseLine line = .noMatch ∨ ∃ a v, LineFits line a v := by
  obtain h | ⟨addr, minus, val, hscans⟩ := parseLine_cases line
  · exact .inl h
  · exact .inr ⟨_, _, lineFits_of_scans hscans (convertValue_eq minus val)⟩

/-- Settles O53: a line that fits parses to its two numbers, and a line the parser does not reject fits. -/
theorem parserAcceptsExactlyTheGrammar : Obligations.ParserAcceptsExactlyTheGrammar := by
  refine ⟨fun line a v => ⟨fun h => ?fits, parseLine_of_lineFits⟩, fun line => ⟨?noneFits, fun h => ?noMatch⟩⟩
  case fits =>
    obtain hno | ⟨a', v', hfits⟩ := parseLine_noMatch_or_lineFits line
    · rw [hno] at h
      cases h
    · rw [parseLine_of_lineFits hfits] at h
      cases h
      exact hfits
  case noneFits =>
    rintro hno ⟨a, v, hfits⟩
    rw [parseLine_of_lineFits hfits] at hno
    cases hno
  case noMatch => exact (parseLine_noMatch_or_lineFits line).resolve_right h

/-! ### A load of good lines, and the first failure after them -/

/-- What the stores of these lines, each value clamped, make of a memory (45_program_loader.md R156). -/
def storeLines : Memory → List (Nat × Int) → Memory
  | m, [] => m
  | m, p :: rest => storeLines (m.write p.1 (clamp p.2)) rest

/-- Of the lines that name an address the last one counts; where none does, the word stays (R159, R160). -/
theorem read_storeLines (m : Memory) (pairs : List (Nat × Int)) (a : Nat) :
    (storeLines m pairs).read a = if a ∈ pairs.map Prod.fst then lastAssigned pairs a else m.read a := by
  induction pairs generalizing m with
  | nil => simp [storeLines]
  | cons p rest ih =>
    rw [storeLines, ih, read_write, List.map_cons, lastAssigned]
    by_cases hrest : a ∈ rest.map Prod.fst
    · rw [if_pos hrest, if_pos hrest, if_pos (List.mem_cons_of_mem _ hrest)]
    · by_cases hp : a = p.1 <;> simp [hp, hrest, eq_comm]

theorem lastAssigned_of_unnamed {pairs : List (Nat × Int)} {a : Nat} (h : a ∉ pairs.map Prod.fst) :
    lastAssigned pairs a = 0 := by
  cases pairs with
  | nil => rfl
  | cons p rest =>
    obtain ⟨hp, hrest⟩ := not_or.1 (mt List.mem_cons.2 h)
    rw [lastAssigned, if_neg hrest, if_neg (Ne.symm hp)]

theorem read_storeLines_nil (pairs : List (Nat × Int)) (a : Nat) :
    (storeLines [] pairs).read a = lastAssigned pairs a := by
  rw [read_storeLines]
  split
  · rfl
  · rw [read_nil, lastAssigned_of_unnamed ‹_›]

/-- A load goes on after good lines with their values stored. -/
theorem loadItems_assigns_append {pairs : List (Nat × Int)} (h : ∀ p ∈ pairs, p.1 < 50) (rest : List LoadItem)
    (s : State) : loadItems (pairs.map (fun p => .assign p.1 (some p.2)) ++ rest) s =
      loadItems rest (s.setMem (storeLines s.mem pairs)) := by
  induction pairs generalizing s with
  | nil => rfl
  | cons p pairs ih =>
    obtain ⟨hp, hpairs⟩ := List.forall_mem_cons.1 h
    have stores : loadItem (.assign p.1 (some p.2)) s = .ok (s.setMem (s.mem.write p.1 (clamp p.2))) :=
      if_neg (not_le.2 (Int.ofNat_lt.2 hp))
    rw [List.map_cons, List.cons_append, loadItems_ok stores, ih hpairs]
    rfl

/-- Settles O49: the good lines are stored, no item is left, and the end of the items makes the machine runnable. -/
theorem loadOfGoodLinesSucceeds : Obligations.LoadOfGoodLinesSucceeds := by
  intro pairs s h
  have loads := loadItems_assigns_append h [] s.beginLoad
  rw [List.append_nil, loadItems_nil] at loads
  exact ⟨_, loads, read_storeLines_nil pairs, rfl, rfl, rfl, rfl, rfl, rfl, rfl⟩

/-- The failures that end a load, with their results (45_program_loader.md R157). -/
theorem loadItem_of_failure {bad : LoadItem} {r : LoadResult}
    (h : (bad = .readFailure ∧ r = .badFile) ∨ (bad = .noMatch ∧ r = .badLine) ∨
      (∃ a v, bad = .assign a v ∧ 50 ≤ a ∧ r = .badAddress)) (s : State) : loadItem bad s = .error r := by
  obtain ⟨rfl, rfl⟩ | ⟨rfl, rfl⟩ | ⟨a, v, rfl, ha, rfl⟩ := h
  · rfl
  · rfl
  · exact if_pos (Int.ofNat_le.2 ha)

/-- Settles O50: the good lines are stored, and the failure ends the load there, with the machine still halted. -/
theorem loadStopsAtTheFirstFailure : Obligations.LoadStopsAtTheFirstFailure := by
  intro pairs bad rest s h r hbad
  have loads := loadItems_assigns_append h (bad :: rest) s.beginLoad
  rw [loadItems_error (loadItem_of_failure hbad _)] at loads
  exact ⟨_, loads, read_storeLines_nil pairs, rfl, rfl, rfl, rfl⟩

/-! ### A load of any text -/

/-- A parsed item holds a value wherever it is an assignment: its conversion cannot fail (45_program_loader.md R154). -/
theorem parse_ne_assign_none (item : InputItem) (a : Nat) : item.parse ≠ .assign a none := by
  cases item with
  | readFailure => simp [InputItem.parse]
  | line text =>
    rw [InputItem.parse]
    obtain h | ⟨a', v, hfits⟩ := parseLine_noMatch_or_lineFits text.toList
    · simp [h]
    · simp [parseLine_of_lineFits hfits]

theorem loadItems_status {items : List LoadItem} {s : State} (hvalues : ∀ item ∈ items, ∀ a, item ≠ .assign a none)
    (hs : s.cpu = .halted) :
    (loadItems items s).2.cpu = (if (loadItems items s).1 = .ok then .runnable else .halted) ∧
      (loadItems items s).1 ≠ .badValue := by
  induction items generalizing s with
  | nil => simp
  | cons item rest ih =>
    obtain ⟨hitem, hrest⟩ := List.forall_mem_cons.1 hvalues
    obtain ⟨-, e⟩ | ⟨-, e⟩ | ⟨_, _, -, -, e⟩ | ⟨a, he, -, -⟩ | ⟨_, _, -, -, e⟩ := loadItem_cases item s
    · simp [loadItems_error e, hs]
    · simp [loadItems_error e, hs]
    · simp [loadItems_error e, hs]
    · exact absurd he (hitem a)
    · rw [loadItems_ok e]
      exact ih hrest hs

/-- Settles O51: a load starts halted and only its end makes it runnable; no text gives an unconverted value. -/
theorem loadIsRunnableExactlyOnSuccess : Obligations.LoadIsRunnableExactlyOnSuccess :=
  fun _ _ => loadItems_status (List.forall_mem_map.2 fun item _ => parse_ne_assign_none item) rfl

end Sys2Proof.Machine
end

section
/-! PROOFS for 60_exceptions.md: the instructions that stop the machine, the ways a Step can leave CPUSTATE, and the
statements read off them. -/

namespace Sys2Proof.Machine

/-! ### The two operations that stop -/

/-- DIV with a zero divisor and HLT are the only operations that write CPUSTATE (60_exceptions.md R180). -/
theorem effect_cpu_of_no_stop {i : Instr} {s : State} (hhlt : i.opcode ≠ 0)
    (hdiv : ¬ (i.opcode = 23 ∧ s.mem.read i.target.toNat = 0)) : (effect i s).cpu = s.cpu := by
  cases i with
  | hlt t => exact absurd rfl hhlt
  | jeq | jgt | jlt | jmp | jle | jne | lac | pac | lmq | pmq | add | sub | mul | put => simp [effect]
  | div t =>
    rcases effect_div_cases t s with ⟨hz, -⟩ | ⟨-, e⟩
    · exact absurd ⟨rfl, hz⟩ hdiv
    · rw [e, divide_cpu]
  | get t => rcases effect_get_cases t s with ⟨-, e⟩ | ⟨v, rest, -, e⟩ <;> simp [e]

theorem eq_hlt_of_opcode {i : Instr} (h : i.opcode = 0) : i = .hlt i.target := by
  cases i with
  | hlt => rfl
  | _ => simp [Instr.opcode] at h

theorem eq_div_of_opcode {i : Instr} (h : i.opcode = 23) : i = .div i.target := by
  cases i with
  | div => rfl
  | _ => simp [Instr.opcode] at h

/-! ### The ways a Step can leave CPUSTATE -/

/-- A Step stops at its decode, at a HLT or at a DIV by zero, each time with the whole next state written out, or it
leaves the machine runnable (60_exceptions.md R180). -/
theorem step_stop_cases {s s' : State} (hs : step s = .next s') :
    ((s.decodeAt s.pc).2 ≠ .runnable ∧ s' = s.stop (s.decodeAt s.pc).2) ∨
    (∃ t, s.decodeAt s.pc = (.known (.hlt t), .runnable) ∧ s' = (s.enter (.hlt t)).stop .halted) ∨
    (∃ t, s.decodeAt s.pc = (.known (.div t), .runnable) ∧ s.mem.read t.toNat = 0 ∧
      s' = (s.enter (.div t)).stop .divideByZero) ∨
    (∃ i, s.decodeAt s.pc = (.known i, .runnable) ∧ i.opcode ≠ 0 ∧
      ¬ (i.opcode = 23 ∧ s.mem.read i.target.toNat = 0) ∧ s'.cpu = .runnable) := by
  have hc : s.cpu = .runnable := (step_cases hs).1
  rcases step_next_cases hs with hfail | ⟨i, hd, hw, rfl⟩ | ⟨i, hd, -, rfl⟩
  · exact .inl hfail
  · obtain ⟨⟨t, rfl⟩, -⟩ := awaitsInput_eq_true.1 hw
    exact .inr (.inr (.inr ⟨.get t, hd, by simp [Instr.opcode], by simp [Instr.opcode], hc⟩))
  · by_cases hhlt : i.opcode = 0
    · rw [eq_hlt_of_opcode hhlt] at hd ⊢
      exact .inr (.inl ⟨_, hd, rfl⟩)
    · by_cases hdiv : i.opcode = 23 ∧ s.mem.read i.target.toNat = 0
      · obtain ⟨hopcode, hz⟩ := hdiv
        rw [eq_div_of_opcode hopcode] at hd ⊢
        exact .inr (.inr (.inl ⟨_, hd, hz, if_pos ((enter_mem s _).symm ▸ hz)⟩))
      · refine .inr (.inr (.inr ⟨i, hd, hhlt, hdiv, ?_⟩))
        rw [effect_cpu_of_no_stop hhlt (by rwa [enter_mem]), enter_cpu, hc]

/-! ### What decodes as runnable -/

theorem opcode_assigned (i : Instr) : i.opcode ∈ assignedOpcodes := by cases i <;> simp [Instr.opcode]

/-- What decodes as runnable passes the decoder's tests in the order of R69: address, opcode, target. -/
theorem passes_tests_of_decodeAt {s : State} {a : Int} {i : Instr} (h : s.decodeAt a = (.known i, .runnable)) :
    ¬ (a < 0 ∨ 50 ≤ a) ∧ splitWord s.config.negWord (s.mem.read a.toNat) = (i.opcode, i.target) ∧
    ¬ (i.target < 0 ∨ 50 ≤ i.target) := by
  obtain ⟨h0, h1, -⟩ := decodeAt_runnable h
  obtain ⟨hlow, hhigh⟩ := wellFormed_of_decodeAt h
  rw [decodeAt_inside s h0 h1] at h
  exact ⟨not_or.2 ⟨h0.not_gt, h1.not_ge⟩, splitWord_of_decodeWord h, not_or.2 ⟨hlow.not_gt, hhigh.not_ge⟩⟩

/-! ### The statements -/

/-- Settles O24: a failed decode leaves the verdict of the decoder's ordered tests; what decodes passes them, and its
opcode and divisor then say which of the other ways the Step went. -/
theorem statusAfterAStep : Obligations.StatusAfterAStep := by
  intro s s' hs
  rcases step_stop_cases hs with ⟨hv, rfl⟩ | ⟨t, hd, rfl⟩ | ⟨t, hd, hz, rfl⟩ | ⟨i, hd, hhlt, hdiv, hc⟩
  · rw [decoderTestsAreOrdered] at hv
    rw [stop_cpu, decoderTestsAreOrdered]
    dsimp only
    -- The two chains branch alike: the failing tests give equal verdicts, the last branch of `hv` is no failure.
    split_ifs at hv ⊢ <;> trivial
  all_goals
    obtain ⟨hpc, hsplit, htgt⟩ := passes_tests_of_decodeAt hd
    simp only [hsplit, if_neg hpc, if_neg htgt, if_neg (not_not.2 (opcode_assigned _))]
  · simp [Instr.opcode]
  · simp [Instr.opcode, Instr.target, hz]
  · rw [if_neg hdiv, if_neg hhlt, hc]

/-- Settles O25: the stop at a failed decode and the one at a zero divisor are errors, the other two ends are not. -/
theorem onlyBadFetchOrZeroDivisorIsUnsafe : Obligations.OnlyBadFetchOrZeroDivisorIsUnsafe := by
  intro s s' hs
  rcases step_stop_cases hs with ⟨hv, rfl⟩ | ⟨t, hd, rfl⟩ | ⟨t, hd, hz, rfl⟩ | ⟨i, hd, -, hdiv, hc⟩
  · refine iff_of_true ?_ (.inl hv)
    rcases decodeAt_failure hv with e | e <;> simp [State.safe, e, isError]
  · simp [State.safe, isError, hd]
  · exact iff_of_true (by simp [State.safe, isError]) (.inr ⟨t, hd, hz⟩)
  · refine iff_of_false (by simp [State.safe, isError, hc]) ?_
    rintro (hv | ⟨t, ht, hz⟩)
    · exact hv (by rw [hd])
    · cases hd.symm.trans ht
      exact hdiv ⟨rfl, hz⟩

/-- Settles O29: each of the three stops is written out in `step_stop_cases`, the last two one past the instruction. -/
theorem stopsArePrecise : Obligations.StopsArePrecise := by
  intro s s' hs hstop
  rcases step_stop_cases hs with ⟨hv, rfl⟩ | ⟨t, -, rfl⟩ | ⟨t, -, -, rfl⟩ | ⟨_, -, -, -, hc⟩
  · rcases decodeAt_failure hv with e | e <;> simp [State.stoppedAt, e]
  · simp [State.stoppedAt]
  · simp [State.stoppedAt]
  · exact absurd hc hstop

/-- Settles O28: a terminal state has no Step, and of the other events only resets and loads write the machine. -/
theorem onlyResetOrLoadLeavesATerminalState : Obligations.OnlyResetOrLoadLeavesATerminalState := by
  intro e s s' r hterminal he
  have unchanged : sameMachine s s := ⟨rfl, rfl, rfl, rfl, rfl⟩
  rcases handle_cases he with ⟨tr, rfl, rfl, -⟩ | ⟨rfl, rfl, -⟩ | ⟨items, rfl, -, -⟩ | ⟨v, -, rfl, -⟩ |
    ⟨-, hs, -⟩ | ⟨-, rfl, -⟩ | ⟨_, -, rfl, -⟩
  · exact .inl ⟨⟨tr, rfl⟩, rfl, rfl⟩
  · exact .inr (.inl ⟨rfl, rfl, rfl, rfl⟩)
  · exact .inr (.inr (.inl ⟨items, rfl⟩))
  · exact .inr (.inr (.inr unchanged))
  · exact absurd (step_cases hs).1 hterminal
  · exact .inr (.inr (.inr unchanged))
  · exact .inr (.inr (.inr unchanged))

end Sys2Proof.Machine
end

section
/-! PROOFS for 70_reset_and_hazards.md: the two resets, and a load from any two states. -/

namespace Sys2Proof.Machine

/-! ### The resets -/

/-- After a cold reset the word at PC is 0, which is the encoding of HLT 0 (70_reset_and_hazards.md R210). -/
theorem step_coldReset (s : State) (tr : Bool) :
    ∃ s', step (s.coldReset tr) = .next s' ∧ s'.cpu = .halted ∧ s'.pc = 1 ∧ s'.ac = 0 ∧ s'.mq = 0 ∧
      s'.mem = (s.coldReset tr).mem :=
  hltHalts.2 0 (s.coldReset tr) (by decide) (by decide) rfl (by simp) (by simp) (read_nil _)

/-- Settles O1: a cold reset assigns each field, and the Step after it is the one of `step_coldReset`. -/
theorem coldResetZeroesEverything : Obligations.ColdResetZeroesEverything := by
  refine ⟨fun tr s => ?_, read_nil, rfl, rfl, rfl, rfl⟩
  obtain ⟨s'', hs, hcpu, hpc, hac, hmq, hmem⟩ := step_coldReset s tr
  exact ⟨s.coldReset tr, rfl, read_nil, rfl, rfl, rfl, rfl, rfl, s'', hs, hpc, hcpu, hac, hmq, hmem⟩

/-- Settles O2: the event is the one update of `State.warmReset`, in every state. -/
theorem warmResetKeepsMemory : Obligations.WarmResetKeepsMemory := fun _ => rfl

/-! ### A load from any two states -/

/-- The start of a load makes any two machines the same (70_reset_and_hazards.md R212). -/
theorem sameMachine_beginLoad (s t : State) : sameMachine s.beginLoad t.beginLoad := ⟨rfl, rfl, rfl, rfl, rfl⟩

section
variable {s t : State} (h : sameMachine s t)
include h

theorem sameMachine_stop (c : CpuState) : sameMachine (s.stop c) (t.stop c) := by
  obtain ⟨hmem, hpc, hac, hmq, -⟩ := h
  exact ⟨hmem, hpc, hac, hmq, rfl⟩

theorem sameMachine_store (a : Nat) (v : Int) :
    sameMachine (s.setMem (s.mem.write a v)) (t.setMem (t.mem.write a v)) := by
  obtain ⟨hmem, hrest⟩ := h
  exact ⟨congrArg (·.write a v) hmem, hrest⟩

/-- One round of a load fails alike on two machines that are the same, or keeps them the same. -/
theorem loadItem_sameMachine (item : LoadItem) :
    (∃ r, loadItem item s = .error r ∧ loadItem item t = .error r) ∨
    (∃ s' t', loadItem item s = .ok s' ∧ loadItem item t = .ok t' ∧ sameMachine s' t') := by
  obtain ⟨rfl, e⟩ | ⟨rfl, e⟩ | ⟨a, v, rfl, ha, e⟩ | ⟨a, rfl, ha, e⟩ | ⟨a, x, rfl, ha, e⟩ := loadItem_cases item s
  · exact .inl ⟨_, e, rfl⟩
  · exact .inl ⟨_, e, rfl⟩
  · exact .inl ⟨_, e, if_pos ha⟩
  · exact .inl ⟨_, e, if_neg ha.not_ge⟩
  · exact .inr ⟨_, _, e, if_neg ha.not_ge, sameMachine_store h a (clamp x)⟩

/-- The items end alike on two machines that are the same, whatever their parameters and ports hold. -/
theorem loadItems_sameMachine (items : List LoadItem) :
    (loadItems items s).1 = (loadItems items t).1 ∧ sameMachine (loadItems items s).2 (loadItems items t).2 := by
  induction items generalizing s t with
  | nil => exact ⟨rfl, sameMachine_stop h .runnable⟩
  | cons item rest ih =>
    obtain ⟨r, hs, ht⟩ | ⟨s', t', hs, ht, same⟩ := loadItem_sameMachine h item
    · rw [loadItems_error hs, loadItems_error ht]
      exact ⟨rfl, h⟩
    · rw [loadItems_ok hs, loadItems_ok ht]
      exact ih same

end

/-- Settles O52: the start of a load makes the two machines the same, and every item keeps them so. -/
theorem loadDependsOnTheTextAlone : Obligations.LoadDependsOnTheTextAlone :=
  fun items s t => loadItems_sameMachine (sameMachine_beginLoad s t) (items.map InputItem.parse)

end Sys2Proof.Machine
end

section
/-! PROOFS for 95_test_vectors.md 2.2: words written out from the encoding, as cases of the rules of 30_encoding.md. -/

namespace Sys2Proof.Machine

/-- A word whose target lies past memory keeps its instruction, with invalid-address (30_encoding.md R64). -/
theorem decodeWord_target_past_memory {nw : NegWord} {w : Int} {i : Instr}
    (hsplit : splitWord nw w = (i.opcode, i.target)) (ht : 50 ≤ i.target) :
    decodeWord nw w = (.known i, .invalidAddress) := by
  rw [decodeWord_of_split hsplit, if_pos (.inr ht)]

/-- An unassigned opcode is judged before the target is looked at (30_encoding.md R69). -/
theorem decodeWord_verdict_unassigned {nw : NegWord} {w : Int} (h : (splitWord nw w).1 ∉ assignedOpcodes) :
    (decodeWord nw w).2 = .invalidInstruction := by
  rw [decodeWord_verdict, if_pos h]

/-- Settles O11: four of the words are the encoding of a well-formed instruction, two have a target past memory, and
two an unassigned opcode. -/
theorem writtenWordsDecode : Obligations.WrittenWordsDecode := by
  have runs := decodingAnEncodingGivesItBack .trunc
  refine ⟨runs (.hlt 49) ?_, decodeWord_target_past_memory ?_ ?_, runs (.jeq 8) ?_, decodeWord_verdict_unassigned ?_,
    runs (.pmq 13) ?_, decodeWord_target_past_memory ?_ ?_, runs (.put 49) ?_, decodeWord_verdict_unassigned ?_⟩ <;>
    decide

end Sys2Proof.Machine
end
